-- ==== Sys2Proof/Word.lean ====
section
/-! DEFINITION. The word types of ME128: what the spec treats as bits of one fixed width. -/

namespace Sys2Proof

/-- A 32-bit bus word or command word (00_scope.md R7). -/
abbrev Word := BitVec 32

/-- One entry of the digit buffer, 8 bits (10_state.md R37). -/
abbrev Byte := BitVec 8

/-- A byte offset inside the 8 KiB aperture, 13 bits (20_memory.md R60). -/
abbrev Offset := BitVec 13

end Sys2Proof
end

