-- ==== Sys2Proof/Syntax.lean ====
section
/-! DEFINITION. The ten commands of ME128-C1, one constructor for each row of the opcode table
(30_encoding.md R96). -/

namespace Sys2Proof

/-- The four big-integer registers. None is hardwired and none has an alias (10_state.md R21). -/
inductive XReg where
  | x0 | x1 | x2 | x3
deriving DecidableEq, Repr

/-- A command with its operands (30_encoding.md R95, R96, R100). A register operand is one of the
four registers and an immediate is 16 bits, so every term is a command the encoding has a word for. -/
inductive Instr where
  /-- `DEC rd`: digit sequence to integer (40_codec.md R120). -/
  | dec (rd : XReg)
  /-- `ENC rs1`: integer to its minimal digit sequence (40_codec.md R121). -/
  | enc (rs1 : XReg)
  /-- `ENCW rs1, imm16`: integer to exactly `imm16` digits (40_codec.md R122). -/
  | encw (rs1 : XReg) (imm16 : BitVec 16)
  /-- `BLKLEN rd, rs1`: block length of a modulus (40_codec.md R123). -/
  | blklen (rd rs1 : XReg)
  /-- `MODEXP rd, rs1, rs2, rs3`: result, base, exponent, modulus (41_modular.md R140). -/
  | modexp (rd rs1 rs2 rs3 : XReg)
  /-- `MODRED rd, rs1, rs3`: result, value, modulus (41_modular.md R141). -/
  | modred (rd rs1 rs3 : XReg)
  /-- `MUL rd, rs1, rs2`: exact product (41_modular.md R142). -/
  | mul (rd rs1 rs2 : XReg)
  /-- `MOV rd, rs1`: copy (42_move_compare.md R160). -/
  | mov (rd rs1 : XReg)
  /-- `LDI rd, imm16`: small constant (42_move_compare.md R161). -/
  | ldi (rd : XReg) (imm16 : BitVec 16)
  /-- `CMP rs1, rs2`: unsigned comparison (42_move_compare.md R162). -/
  | cmp (rs1 rs2 : XReg)
deriving DecidableEq, Repr

end Sys2Proof
end

