-- ==== Sys2Proof/WellFormed.lean ====
section
/-! DEFINITION. When the fields of a word are well formed for a command's layout: the checks of
30_encoding.md R93, R94 and R98. A term of `Instr` needs no further check, since its types admit only
register numbers 0 to 3 and 16-bit immediates. -/

namespace Sys2Proof

/-- The names of the fields above the opcode in format R (30_encoding.md R91). -/
inductive Field where
  | rd | rs1 | rs2 | rs3 | zero
deriving DecidableEq, Repr

/-- Why a word encodes no command (30_encoding.md R98). The machine does not tell these apart: each
is the fault `ILLEGAL_CMD` (60_exceptions.md R192; the names are the model's own, DESIGN CHOICE,
notes/assumptions/13.md). -/
inductive Illegal where
  /-- The opcode is none of the ten. -/
  | opcode
  /-- A register field the command uses holds 4 to 15 (30_encoding.md R93). -/
  | register (f : Field)
  /-- A field the command does not use is not zero (30_encoding.md R94). -/
  | unused (f : Field)
deriving DecidableEq, Repr

/-- The fields of a command word (30_encoding.md R91, R92). `imm16` covers the same bits as `rs2`,
`rs3` and `zero`: a command reads one or the other. -/
structure Fields where
  op    : BitVec 8
  rd    : BitVec 4
  rs1   : BitVec 4
  rs2   : BitVec 4
  rs3   : BitVec 4
  zero  : BitVec 8
  imm16 : BitVec 16
deriving DecidableEq, Repr

/-- What a command does with a field (30_encoding.md R93, R94, R97). -/
inductive Use where
  /-- It names a register. -/
  | reg
  /-- It must be zero. -/
  | blank
  /-- It is part of the immediate and is not tested. -/
  | imm
deriving DecidableEq, Repr

/-- The uses of a command's fields, the column "fields used" of 30_encoding.md R96. -/
structure Layout where
  rd   : Use
  rs1  : Use
  rs2  : Use
  rs3  : Use
  zero : Use
deriving DecidableEq, Repr

/-- The check of one field of value `v` under its use. -/
def Use.problem (u : Use) (f : Field) (v : Nat) : Option Illegal :=
  match u with
  | .reg   => if v < 4 then none else some (.register f)
  | .blank => if v = 0 then none else some (.unused f)
  | .imm   => none

/-- The first check of a layout that the fields fail. -/
def Layout.problem (l : Layout) (f : Fields) : Option Illegal :=
  (l.rd.problem .rd f.rd.toNat).or <|
  (l.rs1.problem .rs1 f.rs1.toNat).or <|
  (l.rs2.problem .rs2 f.rs2.toNat).or <|
  (l.rs3.problem .rs3 f.rs3.toNat).or <|
  l.zero.problem .zero f.zero.toNat

end Sys2Proof
end

