-- ==== Sys2Proof/Decode.lean ====
section
/-! DEFINITION. Command words to commands and back (30_encoding.md R91 to R100). A command is one
32-bit number written to `CMD`, so there is no instruction memory and no byte order (20_memory.md R66). -/

namespace Sys2Proof

/-- Register number of a register (10_state.md R21). -/
def XReg.num : XReg → Nat
  | .x0 => 0
  | .x1 => 1
  | .x2 => 2
  | .x3 => 3

/-- The register a number below 4 names. Larger numbers name none and never reach this function:
they are refused first (30_encoding.md R93). -/
def XReg.ofNum : Nat → XReg
  | 0 => .x0
  | 1 => .x1
  | 2 => .x2
  | _ => .x3

/-- The fields of a word, at the places 30_encoding.md R91 and R92 give them. -/
def fieldsOf (w : Word) : Fields where
  op    := w.extractLsb' 0 8
  rd    := w.extractLsb' 8 4
  rs1   := w.extractLsb' 12 4
  rs2   := w.extractLsb' 16 4
  rs3   := w.extractLsb' 20 4
  zero  := w.extractLsb' 24 8
  imm16 := w.extractLsb' 16 16

/-- The layout of each opcode (30_encoding.md R96, R97); none for the other 246 values (R98). -/
def layoutOf (op : BitVec 8) : Option Layout :=
  match op with
  | 0x10#8 => some ⟨.reg, .blank, .blank, .blank, .blank⟩
  | 0x11#8 => some ⟨.blank, .reg, .blank, .blank, .blank⟩
  | 0x12#8 => some ⟨.blank, .reg, .imm, .imm, .imm⟩
  | 0x13#8 => some ⟨.reg, .reg, .blank, .blank, .blank⟩
  | 0x20#8 => some ⟨.reg, .reg, .reg, .reg, .blank⟩
  | 0x21#8 => some ⟨.reg, .reg, .blank, .reg, .blank⟩
  | 0x22#8 => some ⟨.reg, .reg, .reg, .blank, .blank⟩
  | 0x30#8 => some ⟨.reg, .reg, .blank, .blank, .blank⟩
  | 0x31#8 => some ⟨.reg, .blank, .imm, .imm, .imm⟩
  | 0x32#8 => some ⟨.blank, .reg, .reg, .blank, .blank⟩
  | _ => none

/-- Why the fields are those of no command, if they are (30_encoding.md R98). -/
def Fields.problem (f : Fields) : Option Illegal :=
  match layoutOf f.op with
  | none   => some .opcode
  | some l => l.problem f

/-- The fields are those of a command. -/
def Fields.wellFormed (f : Fields) : Bool := f.problem.isNone

/-- The command that well-formed fields stand for (30_encoding.md R97). -/
def commandOf (f : Fields) : Except Illegal Instr :=
  let rd  := XReg.ofNum f.rd.toNat
  let rs1 := XReg.ofNum f.rs1.toNat
  let rs2 := XReg.ofNum f.rs2.toNat
  let rs3 := XReg.ofNum f.rs3.toNat
  match f.op with
  | 0x10#8 => .ok (.dec rd)
  | 0x11#8 => .ok (.enc rs1)
  | 0x12#8 => .ok (.encw rs1 f.imm16)
  | 0x13#8 => .ok (.blklen rd rs1)
  | 0x20#8 => .ok (.modexp rd rs1 rs2 rs3)
  | 0x21#8 => .ok (.modred rd rs1 rs3)
  | 0x22#8 => .ok (.mul rd rs1 rs2)
  | 0x30#8 => .ok (.mov rd rs1)
  | 0x31#8 => .ok (.ldi rd f.imm16)
  | 0x32#8 => .ok (.cmp rs1 rs2)
  | _ => .error .opcode

/-- Decoding, a total function from 32-bit words (30_encoding.md R97): the word's fields are checked
before anything is read from them, and a word that encodes no command is rejected by name. -/
def decode (w : Word) : Except Illegal Instr :=
  match (fieldsOf w).problem with
  | some e => .error e
  | none   => commandOf (fieldsOf w)

/-- A word of format R (30_encoding.md R91), the `zero` field 0. -/
def wordR (op : BitVec 8) (rd rs1 rs2 rs3 : BitVec 4) : Word :=
  0#8 ++ rs3 ++ rs2 ++ rs1 ++ rd ++ op

/-- A word of format I (30_encoding.md R92). -/
def wordI (op : BitVec 8) (rd rs1 : BitVec 4) (imm16 : BitVec 16) : Word :=
  imm16 ++ rs1 ++ rd ++ op

/-- A register's number in a register field. -/
def XReg.field (r : XReg) : BitVec 4 := BitVec.ofNat 4 r.num

/-- The word of a command, fields it does not use 0 (30_encoding.md R94, R96, R100). -/
def encode : Instr → Word
  | .dec rd               => wordR 0x10#8 rd.field 0 0 0
  | .enc rs1              => wordR 0x11#8 0 rs1.field 0 0
  | .encw rs1 imm16       => wordI 0x12#8 0 rs1.field imm16
  | .blklen rd rs1        => wordR 0x13#8 rd.field rs1.field 0 0
  | .modexp rd rs1 rs2 rs3 => wordR 0x20#8 rd.field rs1.field rs2.field rs3.field
  | .modred rd rs1 rs3    => wordR 0x21#8 rd.field rs1.field 0 rs3.field
  | .mul rd rs1 rs2       => wordR 0x22#8 rd.field rs1.field rs2.field 0
  | .mov rd rs1           => wordR 0x30#8 rd.field rs1.field 0 0
  | .ldi rd imm16         => wordI 0x31#8 rd.field 0 imm16
  | .cmp rs1 rs2          => wordR 0x32#8 0 rs1.field rs2.field 0

/-- The word the opcode table's bits `w` stand for: the low `nbits` bits, every higher bit 0. A
command is one word (30_encoding.md R90), numbered as the table numbers it. -/
def tableWord (nbits w : Nat) : Word := BitVec.ofNat 32 (w % 2 ^ nbits)

/-- The command the decoder reads from a row of the opcode table; none where it refuses. -/
def decodeTableWord (nbits w : Nat) : Option Instr :=
  match decode (tableWord nbits w) with
  | .ok i    => some i
  | .error _ => none

end Sys2Proof
end

