-- ==== Sys2Proof/Machine/Arith.lean ====
section
/-! DEFINITION. The integer arithmetic of the commands, over unbounded non-negative integers
(00_scope.md R10, 41_modular.md R150). -/

namespace Sys2Proof.Machine

/-- `bitlen(v)`: 0 for 0, else `floor(log2 v) + 1` (00_scope.md R10). -/
def bitlen (v : Nat) : Nat := if v = 0 then 0 else Nat.log2 v + 1

/-- `ndigits(v) = ceil(bitlen(v) / 7)`, the count of base-128 digits of `v >= 1` (00_scope.md R10). -/
def ndigits (v : Nat) : Nat := (bitlen v + 6) / 7

/-- Digit `i` of the `len`-digit encoding of `v`, digit 0 the most significant (40_codec.md R121, R122). -/
def digitAt (v len i : Nat) : Byte := BitVec.ofNat 8 (v / 128 ^ (len - 1 - i) % 128)

/-- The `len` base-128 digits of `v`, most significant first (40_codec.md R121, R122). -/
def digitsOf (v len : Nat) : List Byte := (List.range len).map (digitAt v len)

/-- The value of a digit sequence: `acc*128 + d[i]` for each entry in turn (40_codec.md R120). -/
def decodeDigits (ds : List Byte) : Nat := ds.foldl (fun acc d => acc * 128 + d.toNat) 0

/-- The loop of `BLKLEN` (40_codec.md R123): divide `t` by 128 while it is at least 128, counting in
`len`. The first argument bounds the number of rounds. -/
def blockLengthLoop : Nat → Nat → Nat → Nat
  | 0, _, len => len
  | k + 1, t, len => if t < 128 then len else blockLengthLoop k (t / 128) (len + 1)

/-- `block_length(n)` by repeated integer division (40_codec.md R123). A value has fewer base-128
digits than bits, so `bitlen n` rounds are enough. -/
def blockLength (n : Nat) : Nat := blockLengthLoop (bitlen n) n 0

/-- The loop of the reference algorithm of `MODEXP` over exponent bits `i-1` down to 0 (41_modular.md
R143): square, then multiply by the base where the bit is 1, each reduced modulo `n`. -/
def modExpLoop (b e n : Nat) : Nat → Nat → Nat
  | 0, r => r
  | i + 1, r => modExpLoop b e n i (if e.testBit i then r * r % n * b % n else r * r % n)

/-- `b^e mod n` by left-to-right square-and-multiply (41_modular.md R143; DEDUCED,
notes/assumptions/12.md). -/
def modExp (b e n : Nat) : Nat := modExpLoop b e n (bitlen e) 1

/-- Word `j` of an integer: bits `32*j+31` down to `32*j` (00_scope.md R9, 20_memory.md R62). -/
def wordAt (v j : Nat) : Word := BitVec.ofNat 32 (v / 2 ^ (32 * j))

/-- The integer with word `j` replaced by `w` and every other bit kept (20_memory.md R62). -/
def withWord (v j : Nat) (w : Word) : Nat :=
  v % 2 ^ (32 * j) + w.toNat * 2 ^ (32 * j) + v / 2 ^ (32 * (j + 1)) * 2 ^ (32 * (j + 1))

end Sys2Proof.Machine
end

