-- ==== Sys2Proof/Config.lean ====
section
/-! DEFINITION. The parameter of ME128 and what is derived from it (00_scope.md R5, R6, R7). -/

namespace Sys2Proof

/-- What is fixed for one ME128: the width `W` of its big-integer registers, an open parameter
(00_scope.md R5). -/
structure Config where
  /-- Bits in each big-integer register. -/
  W : Nat
deriving DecidableEq, Repr

/-- The widths the spec admits (00_scope.md R5). -/
abbrev Config.legal (c : Config) : Prop := c.W % 32 = 0 ∧ 32 ≤ c.W ∧ c.W ≤ 4096

/-- `NW`: 32-bit words in a big-integer register (00_scope.md R6). -/
def Config.nw (c : Config) : Nat := c.W / 32

/-- `DMAX = ceil(W / 7)`: entries of the digit buffer (00_scope.md R6). -/
def Config.dmax (c : Config) : Nat := (c.W + 6) / 7

/-- `NDW = ceil(DMAX / 4)`: 32-bit words that hold the digit buffer (00_scope.md R6). -/
def Config.ndw (c : Config) : Nat := (c.dmax + 3) / 4

/-- The width `State.reset` is given. DESIGN CHOICE (notes/assumptions/1.md): the spec leaves `W`
open, and 32 is the width its test vectors use unless they say otherwise (95_test_vectors.md). -/
def Config.atReset : Config := { W := 32 }

/-- `MINMOD`: the least modulus a command accepts (00_scope.md R7). -/
abbrev minMod : Nat := 128

/-- The constant the `ID` register reads (10_state.md R28). -/
def idWord : Word := 0x4D458001#32

end Sys2Proof
end

