-- ==== Sys2Proof/Machine/State.lean ====
section
/-! DEFINITION. The state of ME128 as plain data (10_state.md R20), the events that drive it
(20_memory.md R74) and its reset values (10_state.md R45). -/

namespace Sys2Proof.Machine

/-- The X file: four registers, each an unsigned integer in `[0, 2^W)` (00_scope.md R10, 10_state.md
R21). The bound relates two fields of the state and is `State.regsFit` (DESIGN CHOICE, notes/assumptions/5.md). -/
structure XFile where
  x0 : Nat
  x1 : Nat
  x2 : Nat
  x3 : Nat
deriving DecidableEq, Repr

/-- A store of bytes by index, in one canonical form: indexes strictly rising and no entry equal to
what an unlisted index reads as (DEDUCED, notes/assumptions/6.md). -/
abbrev Memory := List Host.Cell

/-- One atomic event of ME128's total order (20_memory.md R74). The port's signals and cycles are not
modelled (DESIGN CHOICE, notes/assumptions/10.md). -/
inductive Event where
  /-- The host's `MemRead(off, size)`, `size` in bytes (20_memory.md R67, R82). -/
  | read (off : Offset) (size : Nat)
  /-- The host's `MemWrite(off, size, data)` (20_memory.md R67, R82). -/
  | write (off : Offset) (size : Nat) (data : Word)
  /-- The engine's turn: the completion of a running command, if there is one (10_state.md R42). -/
  | engine
  /-- The reset input (70_reset_and_hazards.md R230). -/
  | reset
deriving DecidableEq, Repr

/-- What an event answered, for the sticky record of 60_exceptions.md R206. -/
inductive Obs where
  /-- A transaction's response; a write answers data 0 (20_memory.md R82). -/
  | response (data : Word) (err : Bool)
  /-- A command completed and delivered its results. -/
  | completed
  /-- A command faulted with this `ECODE`. -/
  | faulted (ecode : BitVec 4)
  /-- A reset happened. -/
  | reset
deriving DecidableEq, Repr

/-- The nine fault codes (60_exceptions.md R191). A fault of ME128 is a next state of this machine. -/
inductive FaultCode where
  | illegalCmd | empty | digitRange | lenRange | overflow | encodeZero | width | modulusSmall | baseRange
deriving DecidableEq, Repr

/-- The architectural state of one ME128 (10_state.md R20), its parameter, and the model's own
`inputs` and `trace`. -/
structure State where
  /-- The parameter `W`; no event changes it (00_scope.md R5; DESIGN CHOICE,
  notes/assumptions/1.md). -/
  cfg    : Config
  /-- The X file (10_state.md R21). -/
  x      : XFile
  /-- The digit buffer by entry index (10_state.md R37). -/
  dbuf   : Memory
  /-- `DLEN` (10_state.md R34). -/
  dlen   : BitVec 16
  /-- `CMD`, the word of the running or last issued command (10_state.md R30). -/
  cmd    : Word
  /-- `STATUS` bit 0 (10_state.md R31). -/
  busy   : Bool
  /-- `STATUS` bit 1 (10_state.md R31). -/
  done   : Bool
  /-- `STATUS` bit 2 (10_state.md R31). -/
  err    : Bool
  /-- `STATUS` bit 4 (10_state.md R25). -/
  eq     : Bool
  /-- `STATUS` bit 5 (10_state.md R25). -/
  lt     : Bool
  /-- `STATUS` bits 11:8 (10_state.md R31). -/
  ecode  : BitVec 4
  /-- `CTRL` bit 0 (10_state.md R33). -/
  ieDone : Bool
  /-- `CTRL` bit 1 (10_state.md R33). -/
  ieErr  : Bool
  /-- The events still to come, oldest first: the schedule of 10_state.md R46
  (DESIGN CHOICE, notes/assumptions/2.md). -/
  inputs : List Event
  /-- What past events answered, newest first (DESIGN CHOICE, notes/assumptions/4.md). -/
  trace  : List Obs
deriving DecidableEq, Repr

/-- Reasons for which the machine stops for good. There is none: "Nothing in ME128 is `stuck`"
(93_implementation_defined.md section 2), so the type is empty (DEDUCED, notes/assumptions/7.md). -/
inductive Fault where
deriving DecidableEq, Repr

/-- Reasons for which a command is not run. -/
inductive Refusal where
  /-- Raised by an arm of `exec` whose command has no meaning yet, and by nothing else. Safe: nothing
  is claimed of such a command. No arm raises it in this model. -/
  | notModelled (mnemonic : String)
deriving DecidableEq, Repr

/-- The reset state of an ME128 of parameter `c`: every piece of state at the value of 10_state.md
R45, no event waiting and none recorded. -/
def State.resetWith (c : Config) : State where
  cfg    := c
  x      := ⟨0, 0, 0, 0⟩
  dbuf   := []
  dlen   := 0
  cmd    := 0
  busy   := false
  done   := false
  err    := false
  eq     := false
  lt     := false
  ecode  := 0
  ieDone := false
  ieErr  := false
  inputs := []
  trace  := []

/-- The machine right after reset (10_state.md R45), with the width of `Config.atReset`. -/
def State.reset : State := State.resetWith Config.atReset

end Sys2Proof.Machine
end

