-- ==== Sys2Proof/Machine/Ops.lean ====
section
/-! DEFINITION. The named operations on the state: the byte store behind the digit buffer, the X file,
how a command ends (with its results, or by taking a fault) and how a fault is left. -/

namespace Sys2Proof.Machine

/-- What a step or a command answers. -/
abbrev Result := Host.Outcome State Fault Refusal

/-! ## The byte store -/

/-- What an unlisted entry reads as: the reset value of `DBUF` entries (10_state.md R45). -/
def Memory.unlisted : Byte := 0#8

/-- The byte at an index. -/
def Memory.read : Memory → Nat → Byte
  | [], _ => Memory.unlisted
  | (k, v) :: m, a => if k = a then v else Memory.read m a

/-- The store without an entry for `a`. -/
def Memory.erase (m : Memory) (a : Nat) : Memory := m.filter (fun c => c.1 != a)

/-- Put an entry for `a` in its place by index. -/
def Memory.insert (a : Nat) (v : Byte) : Memory → Memory
  | [] => [(a, v)]
  | (k, w) :: m => if a < k then (a, v) :: (k, w) :: m else (k, w) :: Memory.insert a v m

/-- Write a byte, keeping the canonical form: the unlisted value removes the entry. -/
def Memory.write (m : Memory) (a : Nat) (v : Byte) : Memory :=
  if v = Memory.unlisted then Memory.erase m a else Memory.insert a v (Memory.erase m a)

/-- Write entries `0` to `n-1` from a list, 0 where the list has ended. -/
def Memory.fill (ds : List Byte) : Nat → Memory → Memory
  | 0, m => m
  | n + 1, m => Memory.write (Memory.fill ds n m) n (ds.getD n 0#8)

/-- The canonical form from index `lo` on: indexes rising from `lo`, no entry of the unlisted value. -/
def Memory.wfFrom : Nat → Memory → Bool
  | _, [] => true
  | lo, (k, v) :: m => decide (lo ≤ k) && (v != Memory.unlisted) && Memory.wfFrom (k + 1) m

/-- The canonical form of a byte store: equal contents are equal lists. -/
def Memory.wf (m : Memory) : Bool := Memory.wfFrom 0 m

/-! ## Registers -/

/-- Read a register of the X file (00_scope.md R11). -/
def XFile.get (f : XFile) : XReg → Nat
  | .x0 => f.x0
  | .x1 => f.x1
  | .x2 => f.x2
  | .x3 => f.x3

/-- Write a register of the X file, the other three kept (10_state.md R22). -/
def XFile.set (f : XFile) (r : XReg) (v : Nat) : XFile :=
  match r with
  | .x0 => { f with x0 := v }
  | .x1 => { f with x1 := v }
  | .x2 => { f with x2 := v }
  | .x3 => { f with x3 := v }

/-- `x[r]` (00_scope.md R11). -/
def State.getX (s : State) (r : XReg) : Nat := s.x.get r

/-- `x[r] <- v`, all `W` bits (10_state.md R22). -/
def State.setX (s : State) (r : XReg) (v : Nat) : State := { s with x := s.x.set r v }

/-- `d[i]`; an entry at index `DMAX` or above does not exist and reads 0 (10_state.md R40). -/
def State.digit (s : State) (i : Nat) : Byte :=
  if i < s.cfg.dmax then Memory.read s.dbuf i else 0#8

/-- `d[i] <- v`; a write to an entry that does not exist is ignored (10_state.md R40). -/
def State.setDigit (s : State) (i : Nat) (v : Byte) : State :=
  if i < s.cfg.dmax then { s with dbuf := Memory.write s.dbuf i v } else s

/-- Write every entry of `DBUF`, the digits and then zeros, and `DLEN` (10_state.md R39; for more
digits than entries, which no run reaches, DESIGN CHOICE, notes/assumptions/14.md). -/
def State.storeDigits (s : State) (ds : List Byte) : State :=
  { s with dbuf := Memory.fill ds s.cfg.dmax s.dbuf, dlen := BitVec.ofNat 16 ds.length }

/-- `EQ` and `LT` together (10_state.md R26). -/
def State.setFlags (s : State) (eq lt : Bool) : State := { s with eq := eq, lt := lt }

/-! ## Issue, completion, fault entry and fault return -/

/-- An issue: `CMD <- data`, `BUSY <- 1`, `DONE <- 0` (10_state.md R30). -/
def State.issue (s : State) (w : Word) : State := { s with cmd := w, busy := true, done := false }

/-- The end of a successful completion: `BUSY <- 0`, `DONE <- 1` (10_state.md R42). -/
def State.deliver (s : State) : State := { s with busy := false, done := true }

/-- The numbers of the fault codes (60_exceptions.md R191). -/
def FaultCode.code : FaultCode → BitVec 4
  | .illegalCmd   => 1
  | .empty        => 2
  | .digitRange   => 3
  | .lenRange     => 4
  | .overflow     => 5
  | .encodeZero   => 6
  | .width        => 7
  | .modulusSmall => 8
  | .baseRange    => 9

/-- Fault entry: `BUSY <- 0`, `ERR <- 1`, `ECODE <- code`, and nothing else (60_exceptions.md R190,
R202). The offending word stays in `CMD`. -/
def State.takeFault (s : State) (c : FaultCode) : State :=
  { s with busy := false, err := true, ecode := c.code }

/-- Fault return, the host's clearing of `ERR`: `ERR <- 0`, `ECODE <- 0` (10_state.md R32,
60_exceptions.md R203). -/
def State.clearErr (s : State) : State := { s with err := false, ecode := 0 }

/-- The host's clearing of `DONE` (10_state.md R32). -/
def State.clearDone (s : State) : State := { s with done := false }

/-- A command's successful end with its writes in `s` (10_state.md R42). -/
def finish (s : State) : Result := .next s.deliver

/-- `raise Fault(code)`: the command ends by taking the fault, none of its writes made
(00_scope.md R11, 60_exceptions.md R190). -/
def raise (c : FaultCode) (s : State) : Result := .next (s.takeFault c)

/-- Add to the record of what events answered (60_exceptions.md R206). -/
def State.record (s : State) (o : Obs) : State := { s with trace := o :: s.trace }

end Sys2Proof.Machine
end

