-- ==== Sys2Proof/Machine/Flags.lean ====
section
/-! DEFINITION. Every flag, status and control computation: the flags of `CMP`, the words `STATUS` and
`CTRL` read as, the phase and the interrupt output. -/

namespace Sys2Proof.Machine

/-- `EQ` after a comparison (42_move_compare.md R162). -/
def eqFlag (a c : Nat) : Bool := decide (a = c)

/-- `LT` after a comparison, unsigned (42_move_compare.md R162). -/
def ltFlag (a c : Nat) : Bool := decide (a < c)

/-- One bit of a register from a status bit. -/
def bit (b : Bool) : BitVec 1 := BitVec.ofBool b

/-- What `STATUS` reads as, reserved bits 0 (10_state.md R31, R35). -/
def statusWord (s : State) : Word :=
  0#20 ++ s.ecode ++ 0#2 ++ bit s.lt ++ bit s.eq ++ 0#1 ++ bit s.err ++ bit s.done ++ bit s.busy

/-- What `CTRL` reads as, reserved bits 0 (10_state.md R33, R35). -/
def controlWord (s : State) : Word := 0#30 ++ bit s.ieErr ++ bit s.ieDone

/-- The three phases (10_state.md R41). -/
inductive Phase where
  | idle | busy | halt
deriving DecidableEq, Repr

/-- The phase, a function of `BUSY` and `ERR` (10_state.md R41). -/
def State.phase (s : State) : Phase :=
  if s.busy then .busy else if s.err then .halt else .idle

/-- The interrupt output, a level and not state (10_state.md R44, 60_exceptions.md R208). -/
def State.irq (s : State) : Bool := (s.done && s.ieDone) || (s.err && s.ieErr)

end Sys2Proof.Machine
end

