-- ==== Sys2Proof/Machine/Operands.lean ====
section
/-! DEFINITION. Every operand form of the commands (30_encoding.md R95): a register, the immediate, and
the implicit digit sequence. There is no other. -/

namespace Sys2Proof.Machine

/-- A register operand, `x[field]` as an integer (30_encoding.md R95). -/
abbrev regOperand (s : State) (r : XReg) : Nat := s.getX r

/-- The immediate, unsigned, never sign-extended, scaled or shifted (30_encoding.md R95). -/
abbrev immOperand (imm16 : BitVec 16) : Nat := imm16.toNat

/-- The digit count `DLEN` as an integer (40_codec.md R120). -/
abbrev lenOperand (s : State) : Nat := s.dlen.toNat

/-- The digit sequence `d[0 .. DLEN-1]` (40_codec.md R120). -/
def digitsOperand (s : State) : List Byte := (List.range (lenOperand s)).map s.digit

end Sys2Proof.Machine
end

