-- ==== Sys2Proof/Machine/Bus.lean ====
section
/-! DEFINITION. The host's side: the address map, the access rules by phase, and what an admitted read
returns and an admitted write does (20_memory.md, 10_state.md R27 to R40). -/

namespace Sys2Proof.Machine

/-- What stands at an offset of the aperture (20_memory.md R61). -/
inductive Target where
  | id | cfg | cmd | status | ctrl | dlen
  /-- DBUF word `k` (20_memory.md R63). -/
  | dbufWord (k : Nat)
  /-- Word `j` of register `r` (20_memory.md R62). -/
  | xWord (r : XReg) (j : Nat)
deriving DecidableEq, Repr

/-- The control and status registers by offset (10_state.md R27). -/
def controlAt : Nat → Option Target
  | 0x0000 => some .id
  | 0x0004 => some .cfg
  | 0x0008 => some .cmd
  | 0x000C => some .status
  | 0x0010 => some .ctrl
  | 0x0014 => some .dlen
  | _ => none

/-- The DBUF words by offset (20_memory.md R63). -/
def dbufAt (c : Config) (a : Nat) : Option Target :=
  if 0x0400 ≤ a ∧ a < 0x0400 + 4 * c.ndw then some (.dbufWord ((a - 0x0400) / 4)) else none

/-- The X register words by offset: four strides, `NW` words in each (20_memory.md R62). -/
def xAt (c : Config) (a : Nat) : Option Target :=
  if 0x1000 ≤ a ∧ a < 0x1800 ∧ a % 0x200 / 4 < c.nw then
    some (.xWord (XReg.ofNum ((a - 0x1000) / 0x200)) (a % 0x200 / 4))
  else none

/-- The address map, three windows (20_memory.md R61); none for a reserved offset. -/
def mapAt (c : Config) (a : Nat) : Option Target :=
  (controlAt a).or ((dbufAt c a).or (xAt c a))

/-- The target of an access: only 4-byte accesses at multiples of 4 have one (20_memory.md R67; an
access carries its size in bytes, DESIGN CHOICE, notes/assumptions/11.md). -/
def targetAt (c : Config) (off : Offset) (size : Nat) : Option Target :=
  if size = 4 ∧ off.toNat % 4 = 0 then mapAt c off.toNat else none

/-- Is a read admitted in a phase (20_memory.md R71)? -/
def readAdmitted (p : Phase) : Target → Bool
  | .id | .cfg | .cmd | .status | .ctrl => true
  | .dlen | .dbufWord _ | .xWord _ _ => decide (p ≠ .busy)

/-- Is a write admitted in a phase (20_memory.md R71)? -/
def writeAdmitted (p : Phase) : Target → Bool
  | .id | .cfg => false
  | .cmd => decide (p = .idle)
  | .status | .ctrl => true
  | .dlen | .dbufWord _ | .xWord _ _ => decide (p ≠ .busy)

/-- What `CFG` reads as: `{DMAX, W}` (10_state.md R29). -/
def cfgWord (c : Config) : Word := BitVec.ofNat 16 c.dmax ++ BitVec.ofNat 16 c.W

/-- What an admitted read returns (10_state.md R28 to R34, 20_memory.md R62, R63). -/
def readTarget (s : State) : Target → Word
  | .id => idWord
  | .cfg => cfgWord s.cfg
  | .cmd => s.cmd
  | .status => statusWord s
  | .ctrl => controlWord s
  | .dlen => 0#16 ++ s.dlen
  | .dbufWord k => s.digit (4 * k + 3) ++ s.digit (4 * k + 2) ++ s.digit (4 * k + 1) ++ s.digit (4 * k)
  | .xWord r j => wordAt (s.getX r) j

/-- The write-one-to-clear of `STATUS` (10_state.md R32). -/
def writeStatus (s : State) (v : Word) : State :=
  let s1 := if v.getLsbD 1 then s.clearDone else s
  if v.getLsbD 2 then s1.clearErr else s1

/-- What an admitted write does (10_state.md R30 to R34, 20_memory.md R62, R63). `ID` and `CFG` admit none. -/
def writeTarget (s : State) (v : Word) : Target → State
  | .id | .cfg => s
  | .cmd => s.issue v
  | .status => writeStatus s v
  | .ctrl => { s with ieDone := v.getLsbD 0, ieErr := v.getLsbD 1 }
  | .dlen => { s with dlen := v.extractLsb' 0 16 }
  | .dbufWord k =>
    (((s.setDigit (4 * k) (v.extractLsb' 0 8)).setDigit (4 * k + 1) (v.extractLsb' 8 8)).setDigit
      (4 * k + 2) (v.extractLsb' 16 8)).setDigit (4 * k + 3) (v.extractLsb' 24 8)
  | .xWord r j => s.setX r (withWord (s.getX r) j v)

/-- `MemRead(off, size)`: the data and the error bit; a refused read returns data 0 (20_memory.md R70, R82). -/
def busRead (s : State) (off : Offset) (size : Nat) : Word × Bool :=
  match targetAt s.cfg off size with
  | none => (0#32, true)
  | some t => if readAdmitted s.phase t then (readTarget s t, false) else (0#32, true)

/-- `MemWrite(off, size, v)`: the state after it and the error bit; a refused write changes no state
(20_memory.md R70, R82). -/
def busWrite (s : State) (off : Offset) (size : Nat) (v : Word) : State × Bool :=
  match targetAt s.cfg off size with
  | none => (s, true)
  | some t => if writeAdmitted s.phase t then (writeTarget s v t, false) else (s, true)

end Sys2Proof.Machine
end

