-- ==== Sys2Proof/Machine/Codec.lean ====
section
/-! DEFINITION. The base-128 codec commands: `DEC`, `ENC`, `ENCW`, `BLKLEN` (40_codec.md). -/

namespace Sys2Proof.Machine

/-- `DEC rd` (40_codec.md R120): emptiness and length, then every digit, then the value's range. -/
def execDec (rd : XReg) (s : State) : Result :=
  if lenOperand s = 0 then raise .empty s
  else if lenOperand s > s.cfg.dmax then raise .lenRange s
  else if (digitsOperand s).any (fun d => decide (128 ≤ d.toNat)) then raise .digitRange s
  else if decodeDigits (digitsOperand s) ≥ 2 ^ s.cfg.W then raise .overflow s
  else finish (s.setX rd (decodeDigits (digitsOperand s)))

/-- `ENC rs1` (40_codec.md R121). -/
def execEnc (rs1 : XReg) (s : State) : Result :=
  if regOperand s rs1 = 0 then raise .encodeZero s
  else finish (s.storeDigits (digitsOf (regOperand s rs1) (ndigits (regOperand s rs1))))

/-- `ENCW rs1, imm16` (40_codec.md R122). -/
def execEncw (rs1 : XReg) (imm16 : BitVec 16) (s : State) : Result :=
  if immOperand imm16 = 0 ∨ immOperand imm16 > s.cfg.dmax then raise .lenRange s
  else if regOperand s rs1 ≥ 128 ^ immOperand imm16 then raise .width s
  else finish (s.storeDigits (digitsOf (regOperand s rs1) (immOperand imm16)))

/-- `BLKLEN rd, rs1` (40_codec.md R123). -/
def execBlklen (rd rs1 : XReg) (s : State) : Result :=
  if regOperand s rs1 < minMod then raise .modulusSmall s
  else finish (s.setX rd (blockLength (regOperand s rs1)))

end Sys2Proof.Machine
end

