-- ==== Sys2Proof/Machine/Modular.lean ====
section
/-! DEFINITION. The modular arithmetic commands: `MODEXP`, `MODRED`, `MUL` (41_modular.md). -/

namespace Sys2Proof.Machine

/-- `MODEXP rd, rs1, rs2, rs3` (41_modular.md R140): base, exponent, modulus. -/
def execModexp (rd rs1 rs2 rs3 : XReg) (s : State) : Result :=
  if regOperand s rs3 < minMod then raise .modulusSmall s
  else if regOperand s rs1 ≥ regOperand s rs3 then raise .baseRange s
  else finish (s.setX rd (modExp (regOperand s rs1) (regOperand s rs2) (regOperand s rs3)))

/-- `MODRED rd, rs1, rs3` (41_modular.md R141). -/
def execModred (rd rs1 rs3 : XReg) (s : State) : Result :=
  if regOperand s rs3 < minMod then raise .modulusSmall s
  else finish (s.setX rd (regOperand s rs1 % regOperand s rs3))

/-- `MUL rd, rs1, rs2` (41_modular.md R142): exact, never wrapped. -/
def execMul (rd rs1 rs2 : XReg) (s : State) : Result :=
  if regOperand s rs1 * regOperand s rs2 ≥ 2 ^ s.cfg.W then raise .overflow s
  else finish (s.setX rd (regOperand s rs1 * regOperand s rs2))

end Sys2Proof.Machine
end

