-- ==== Sys2Proof/Machine/MoveCompare.lean ====
section
/-! DEFINITION. The move and compare commands: `MOV`, `LDI`, `CMP` (42_move_compare.md). -/

namespace Sys2Proof.Machine

/-- `MOV rd, rs1` (42_move_compare.md R160). -/
def execMov (rd rs1 : XReg) (s : State) : Result :=
  finish (s.setX rd (regOperand s rs1))

/-- `LDI rd, imm16` (42_move_compare.md R161). -/
def execLdi (rd : XReg) (imm16 : BitVec 16) (s : State) : Result :=
  finish (s.setX rd (immOperand imm16))

/-- `CMP rs1, rs2` (42_move_compare.md R162): both flags, always. -/
def execCmp (rs1 rs2 : XReg) (s : State) : Result :=
  finish (s.setFlags (eqFlag (regOperand s rs1) (regOperand s rs2))
    (ltFlag (regOperand s rs1) (regOperand s rs2)))

end Sys2Proof.Machine
end

