-- ==== Sys2Proof/Machine/Dispatch.lean ====
section
/-! DEFINITION. One command to its meaning: one arm for each constructor of `Instr`. -/

namespace Sys2Proof.Machine

def exec (i : Instr) (s : State) : Host.Outcome State Fault Refusal :=
  match i with
  | .dec rd => Sys2Proof.Machine.execDec rd s
  | .enc rs1 => Sys2Proof.Machine.execEnc rs1 s
  | .encw rs1 imm16 => Sys2Proof.Machine.execEncw rs1 imm16 s
  | .blklen rd rs1 => Sys2Proof.Machine.execBlklen rd rs1 s
  | .modexp rd rs1 rs2 rs3 => Sys2Proof.Machine.execModexp rd rs1 rs2 rs3 s
  | .modred rd rs1 rs3 => Sys2Proof.Machine.execModred rd rs1 rs3 s
  | .mul rd rs1 rs2 => Sys2Proof.Machine.execMul rd rs1 rs2 s
  | .mov rd rs1 => Sys2Proof.Machine.execMov rd rs1 s
  | .ldi rd imm16 => Sys2Proof.Machine.execLdi rd imm16 s
  | .cmp rs1 rs2 => Sys2Proof.Machine.execCmp rs1 rs2 s

end Sys2Proof.Machine
end

