-- ==== Sys2Proof/Machine/Engine.lean ====
section
/-! DEFINITION. The events of ME128's total order (20_memory.md R74): completions, transactions and
resets, each one atomic step. -/

namespace Sys2Proof.Machine

/-- The evaluation of the word in `CMD` (10_state.md R42): a word that encodes no command faults
before anything is read (60_exceptions.md R192). -/
def evaluate (s : State) : Result :=
  match decode s.cmd with
  | .ok i    => exec i s
  | .error _ => raise .illegalCmd s

/-- What a completion that left `s` is recorded as (60_exceptions.md R206). -/
def completionObs (s : State) : Obs := if s.err then .faulted s.ecode else .completed

/-- The engine's turn: a completion, enabled exactly when `BUSY = 1` (10_state.md R42). Otherwise the
state holds (60_exceptions.md R224). -/
def engineTurn (s : State) : Result :=
  if s.busy then
    match evaluate s with
    | .next t    => .next (t.record (completionObs t))
    | .fault f   => .fault f
    | .refused r => .refused r
  else .next s

/-- The reset event (70_reset_and_hazards.md R230, R231): every piece of state at its reset value in
any phase, as one atomic event (DEDUCED, notes/assumptions/9.md). The parameter, the host's events to
come and the record of past events are not state of ME128 (10_state.md R46) and stay. -/
def resetEvent (s : State) : State :=
  { State.resetWith s.cfg with inputs := s.inputs, trace := .reset :: s.trace }

/-- One event (20_memory.md R74, R82). -/
def event (e : Event) (s : State) : Result :=
  match e with
  | .read off size => .next (s.record (.response (busRead s off size).1 (busRead s off size).2))
  | .write off size v =>
    .next ((busWrite s off size v).1.record (.response 0#32 (busWrite s off size v).2))
  | .engine => engineTurn s
  | .reset => .next (resetEvent s)

/-- The next event: the first one waiting, or the engine's turn when none waits, so that a running
command completes (70_reset_and_hazards.md R245; DESIGN CHOICE, notes/assumptions/3.md). -/
def nextEvent (s : State) : Result :=
  match s.inputs with
  | []        => engineTurn s
  | e :: rest => event e { s with inputs := rest }

/-- The state in which the command word `w` has just been issued and the engine moves next: what an
accepted write of `w` to `CMD` leaves, in phase `BUSY` (10_state.md R30; DESIGN CHOICE,
notes/assumptions/8.md). -/
def placeCommand (s : State) (w : Word) : State :=
  { s.clearErr.issue w with inputs := .engine :: s.inputs }

end Sys2Proof.Machine
end

