-- ==== Sys2Proof/Machine/Step.lean ====
section
/-! DEFINITION. One step of the machine: the next event of the total order (20_memory.md R74). -/

namespace Sys2Proof.Machine

/-- One step. ME128 has no program counter and fetches nothing (10_state.md R24): a step is one event,
and the step in which the engine moves runs the command in `CMD`. -/
def step (s : State) : Host.Outcome State Fault Refusal := nextEvent s

/-- `s` with the opcode table's word placed where the next step runs it: in `CMD`, issued. -/
def State.withFetchWord (s : State) (nbits w : Nat) : State := placeCommand s (tableWord nbits w)

end Sys2Proof.Machine
end

