-- ==== Sys2Proof/Machine/HostSequences.lean ====
section
/-! DEFINITION. The pseudo-instructions of 30_encoding.md R101 as input lists: each expands to bus
transactions and issued commands, and none is a command of ME128 (43_host_sequences.md). -/

namespace Sys2Proof.Machine

/-- Offset of word `j` of a register (20_memory.md R62). -/
def xOffset (r : XReg) (j : Nat) : Offset := BitVec.ofNat 13 (0x1000 + 0x200 * r.num + 4 * j)

/-- Offset of DBUF word `k` (20_memory.md R63). -/
def dbufOffset (k : Nat) : Offset := BitVec.ofNat 13 (0x0400 + 4 * k)

/-- A 4-byte write of the host. -/
def put (off : Offset) (v : Word) : Event := .write off 4 v

/-- A 4-byte read of the host. -/
def look (off : Offset) : Event := .read off 4

/-- Issue and wait (43_host_sequences.md R170), in the schedule whose first poll finds the command
completed (DESIGN CHOICE, notes/assumptions/15.md). -/
def issueAndWait (w : Word) : List Event := [put 0x0008 w, .engine, look 0x000C]

/-- A command line of a host sequence (30_encoding.md R101). -/
def command (i : Instr) : List Event := issueAndWait (encode i)

/-- `WRX xi, v` (43_host_sequences.md R171): all `NW` words. -/
def wrx (c : Config) (r : XReg) (v : Nat) : List Event :=
  (List.range c.nw).map (fun j => put (xOffset r j) (wordAt v j))

/-- `RDX xi` (43_host_sequences.md R172). -/
def rdx (c : Config) (r : XReg) : List Event := (List.range c.nw).map (fun j => look (xOffset r j))

/-- The integer the host makes of the words `RDX` read, word 0 first (43_host_sequences.md R172). -/
def rdxValue (ws : List Word) : Nat := ws.foldr (fun w acc => w.toNat + 2 ^ 32 * acc) 0

/-- The bus word of entries `4q` to `4q+3` of a sequence, absent entries 0 (43_host_sequences.md R173). -/
def packWord (g : List Byte) (q : Nat) : Word :=
  g.getD (4 * q + 3) 0#8 ++ g.getD (4 * q + 2) 0#8 ++ g.getD (4 * q + 1) 0#8 ++ g.getD (4 * q) 0#8

/-- `WRD [g0, ..., g(k-1)]` (43_host_sequences.md R173): the words, then `DLEN`. -/
def wrd (g : List Byte) : List Event :=
  (List.range ((g.length + 3) / 4)).map (fun q => put (dbufOffset q) (packWord g q)) ++
    [put 0x0014 (BitVec.ofNat 32 g.length)]

/-- `WRS "text"` (43_host_sequences.md R173): the characters' ordinals, first character first. Of an
ordinal of 256 or more, which is no entry, the low 8 bits are written (DESIGN CHOICE,
notes/assumptions/16.md). -/
def wrs (text : List Char) : List Event := wrd (text.map (fun ch => BitVec.ofNat 8 ch.toNat))

/-- `RDD` (43_host_sequences.md R174), `k` the count its first read returns. -/
def rdd (k : Nat) : List Event :=
  look 0x0014 :: (List.range ((k + 3) / 4)).map (fun q => look (dbufOffset q))

/-- The entries the host keeps of the DBUF words `RDD` read (43_host_sequences.md R174). -/
def rddDigits (k : Nat) (ws : List Word) : List Byte :=
  (ws.flatMap (fun w =>
    [w.extractLsb' 0 8, w.extractLsb' 8 8, w.extractLsb' 16 8, w.extractLsb' 24 8])).take k

/-- `CLRERR` (43_host_sequences.md R175). -/
def clrErr : List Event := [put 0x000C 0x00000004#32]

/-- `RSAENC.B(B)` (43_host_sequences.md R177), with `x3 = n` and `x1 = e`. -/
def rsaEncBlock (c : Config) (block : List Byte) : List Event :=
  wrd block ++ command (.dec .x0) ++ command (.modexp .x2 .x0 .x1 .x3) ++ rdx c .x2

/-- `RSADEC.B(c, L)` (43_host_sequences.md R178), with `x3 = n` and `x1 = d`. -/
def rsaDecBlock (c : Config) (v len : Nat) : List Event :=
  wrx c .x0 v ++ command (.modexp .x2 .x0 .x1 .x3) ++ command (.encw .x2 (BitVec.ofNat 16 len)) ++
    rdd len

/-- `encrypt` of blocks the host has made (43_host_sequences.md R176). -/
def encryptBlocks (c : Config) (n e : Nat) (blocks : List (List Byte)) : List Event :=
  wrx c .x3 n ++ wrx c .x1 e ++ command (.blklen .x0 .x3) ++ rdx c .x0 ++
    blocks.flatMap (rsaEncBlock c)

/-- `decrypt` of ciphertext values, `len` the block length the host read (43_host_sequences.md R178). -/
def decryptValues (c : Config) (p q d len : Nat) (values : List Nat) : List Event :=
  wrx c .x0 p ++ wrx c .x1 q ++ command (.mul .x3 .x0 .x1) ++ wrx c .x1 d ++
    command (.blklen .x0 .x3) ++ rdx c .x0 ++ values.flatMap (fun v => rsaDecBlock c v len)

/-- `SIGN(D)` (43_host_sequences.md R179). -/
def sign (c : Config) (p q d digest : Nat) : List Event :=
  wrx c .x0 p ++ wrx c .x1 q ++ command (.mul .x3 .x0 .x1) ++ wrx c .x1 d ++ wrx c .x0 digest ++
    command (.modred .x0 .x0 .x3) ++ command (.modexp .x2 .x0 .x1 .x3) ++ rdx c .x2

/-- `VERIFY(D, s)` (43_host_sequences.md R180); the result is `EQ` afterwards. -/
def verify (c : Config) (n e digest signature : Nat) : List Event :=
  wrx c .x3 n ++ wrx c .x1 e ++ wrx c .x0 signature ++ command (.modred .x0 .x0 .x3) ++
    command (.modexp .x2 .x0 .x1 .x3) ++ wrx c .x0 digest ++ command (.modred .x0 .x0 .x3) ++
    command (.cmp .x2 .x0)

/-- `len_digest` before its reduction (43_host_sequences.md R181). -/
def lenDigest (message : List Char) : Nat := message.length

/-- `len_times_sum` before its reduction (43_host_sequences.md R181). -/
def lenTimesSum (message : List Char) : Nat := message.length * (message.map Char.toNat).sum

/-- `ascii_to_int` of a message that fits one `DEC`, left in `x0` (43_host_sequences.md R181). -/
def asciiToInt (message : List Char) : List Event := wrs message ++ command (.dec .x0)

/-- The collision finder for `ascii_to_int`, with `x3 = n` and `k` the count its `RDD` returns
(43_host_sequences.md R182). -/
def asciiToIntCollision (message : List Char) (k : Nat) : List Event :=
  asciiToInt message ++ command (.modred .x0 .x0 .x3) ++ command (.enc .x0) ++ rdd k

/-- Overwriting a register after the use of a private exponent (43_host_sequences.md R184). -/
def forget (r : XReg) : List Event := command (.ldi r 0#16)

/-- The recommended start-up of a driver, enabling both interrupts (70_reset_and_hazards.md R236). -/
def startUp : List Event :=
  [look 0x0000, look 0x0004, look 0x000C, put 0x000C 0x00000006#32, put 0x0010 0x00000003#32]

end Sys2Proof.Machine
end

