-- ==== Sys2Proof/Safety.lean ====
section
/-! DEFINITION. What a well-formed state is, and what a run without a fault or a refused access is. -/

namespace Sys2Proof.Machine

/-- The invariants of the status bits (10_state.md R36), its four clauses in order. -/
abbrev State.statusOk (s : State) : Prop :=
  (s.busy = true → s.done = false ∧ s.err = false) ∧
  ¬ (s.done = true ∧ s.err = true) ∧
  (s.ecode ≠ 0 ↔ s.err = true) ∧
  ¬ (s.eq = true ∧ s.lt = true)

/-- `ECODE` is 0 or one of the nine codes (60_exceptions.md R191). -/
abbrev State.ecodeOk (s : State) : Prop := s.ecode.toNat ≤ 9

/-- Every X register holds an integer in `[0, 2^W)` (10_state.md R21). -/
abbrev State.regsFit (s : State) : Prop :=
  s.x.x0 < 2 ^ s.cfg.W ∧ s.x.x1 < 2 ^ s.cfg.W ∧ s.x.x2 < 2 ^ s.cfg.W ∧ s.x.x3 < 2 ^ s.cfg.W

/-- Every index a byte store lists is below a bound. -/
def Memory.below (n : Nat) (m : Memory) : Bool := m.all (fun c => decide (c.1 < n))

/-- The digit buffer is in its canonical form and lists only entries that exist (10_state.md R37, R40). -/
abbrev State.dbufOk (s : State) : Prop :=
  Memory.wf s.dbuf = true ∧ Memory.below s.cfg.dmax s.dbuf = true

/-- The invariant of the whole machine. -/
abbrev State.Inv (s : State) : Prop :=
  s.cfg.legal ∧ s.statusOk ∧ s.ecodeOk ∧ s.regsFit ∧ s.dbufOk

/-- An answer a program that succeeds never gets: a refused access or a fault (60_exceptions.md R206). -/
def Obs.bad : Obs → Bool
  | .response _ e => e
  | .faulted _    => true
  | .completed    => false
  | .reset        => false

/-- Nothing has gone wrong in the run so far (60_exceptions.md R206): the sticky record holds no fault
and no refused access, whatever the host has cleared since. -/
def State.clean (s : State) : Bool := s.trace.all (fun o => !o.bad)

end Sys2Proof.Machine
end

