-- ==== Sys2Proof/Certificates/Slice0/Obligations.lean ====
section
/-! DEFINITION. The statements for the provers. Each docstring names the rule of spec/ it formalises. -/

open Sys2Proof Sys2Proof.Machine

/-! ## Encoding -/

/-- Decoding the word of a command gives the command, for every command and every operand
(30_encoding.md R97, R100). -/
def Obligations.DecodeOfEncodeIsTheCommand : Prop :=
  ∀ i : Instr, decode (encode i) = .ok i

/-- A word that decodes is the word of what it decodes to: no bit of a legal word is ignored
(30_encoding.md R94). -/
def Obligations.EncodeOfDecodeIsTheWord : Prop :=
  ∀ (w : Word) (i : Instr), decode w = .ok i → encode i = w

/-- The decoder agrees with the columns `match` and `mask` on every word (30_encoding.md R96, R97). -/
def Obligations.DecoderAgreesWithMatchAndMask : Prop :=
  ∀ w : Word,
    ((∃ rd, decode w = .ok (.dec rd)) ↔ w &&& 0xFFFFFCFF#32 = 0x00000010#32) ∧
    ((∃ a, decode w = .ok (.enc a)) ↔ w &&& 0xFFFFCFFF#32 = 0x00000011#32) ∧
    ((∃ a v, decode w = .ok (.encw a v)) ↔ w &&& 0x0000CFFF#32 = 0x00000012#32) ∧
    ((∃ rd a, decode w = .ok (.blklen rd a)) ↔ w &&& 0xFFFFCCFF#32 = 0x00000013#32) ∧
    ((∃ rd a b c, decode w = .ok (.modexp rd a b c)) ↔ w &&& 0xFFCCCCFF#32 = 0x00000020#32) ∧
    ((∃ rd a c, decode w = .ok (.modred rd a c)) ↔ w &&& 0xFFCFCCFF#32 = 0x00000021#32) ∧
    ((∃ rd a b, decode w = .ok (.mul rd a b)) ↔ w &&& 0xFFFCCCFF#32 = 0x00000022#32) ∧
    ((∃ rd a, decode w = .ok (.mov rd a)) ↔ w &&& 0xFFFFCCFF#32 = 0x00000030#32) ∧
    ((∃ rd v, decode w = .ok (.ldi rd v)) ↔ w &&& 0x0000FCFF#32 = 0x00000031#32) ∧
    ((∃ a b, decode w = .ok (.cmp a b)) ↔ w &&& 0xFFFCCFFF#32 = 0x00000032#32)

/-- The word of a command is the sum of 30_encoding.md R100, absent fields 0. -/
def Obligations.EncodedWordIsTheSum : Prop :=
  ∀ (rd a b c : XReg) (v : BitVec 16),
    (encode (.dec rd)).toNat = 0x10 + rd.num * 2 ^ 8 ∧
    (encode (.enc a)).toNat = 0x11 + a.num * 2 ^ 12 ∧
    (encode (.encw a v)).toNat = 0x12 + a.num * 2 ^ 12 + v.toNat * 2 ^ 16 ∧
    (encode (.blklen rd a)).toNat = 0x13 + rd.num * 2 ^ 8 + a.num * 2 ^ 12 ∧
    (encode (.modexp rd a b c)).toNat =
      0x20 + rd.num * 2 ^ 8 + a.num * 2 ^ 12 + b.num * 2 ^ 16 + c.num * 2 ^ 20 ∧
    (encode (.modred rd a c)).toNat = 0x21 + rd.num * 2 ^ 8 + a.num * 2 ^ 12 + c.num * 2 ^ 20 ∧
    (encode (.mul rd a b)).toNat = 0x22 + rd.num * 2 ^ 8 + a.num * 2 ^ 12 + b.num * 2 ^ 16 ∧
    (encode (.mov rd a)).toNat = 0x30 + rd.num * 2 ^ 8 + a.num * 2 ^ 12 ∧
    (encode (.ldi rd v)).toNat = 0x31 + rd.num * 2 ^ 8 + v.toNat * 2 ^ 16 ∧
    (encode (.cmp a b)).toNat = 0x32 + a.num * 2 ^ 12 + b.num * 2 ^ 16

/-- One word of each command, written out from the encoding, decodes to it (30_encoding.md R96, R100). -/
def Obligations.WordsOfTheSpecDecode : Prop :=
  decode 0x00000310#32 = .ok (.dec .x3) ∧
  decode 0x00001011#32 = .ok (.enc .x1) ∧
  decode 0xFFFF3012#32 = .ok (.encw .x3 65535#16) ∧
  decode 0x00003113#32 = .ok (.blklen .x1 .x3) ∧
  decode 0x00310220#32 = .ok (.modexp .x2 .x0 .x1 .x3) ∧
  decode 0x00300121#32 = .ok (.modred .x1 .x0 .x3) ∧
  decode 0x00010322#32 = .ok (.mul .x3 .x0 .x1) ∧
  decode 0x00002130#32 = .ok (.mov .x1 .x2) ∧
  decode 0x054D0331#32 = .ok (.ldi .x3 1357#16) ∧
  decode 0x00002032#32 = .ok (.cmp .x2 .x0)

/-! ## The engine's step -/

/-- In phase `BUSY`, a step that is the engine's turn runs the decoded command: the step's next state is
`exec`'s with the completion recorded, and with the engine's event taken off the input list where one
stood there (10_state.md R42; the input list and the record are the model's own,
notes/assumptions/2.md, 3.md and 4.md). -/
def Obligations.StepRunsTheDecodedCommand : Prop :=
  ∀ (s t : State) (i : Instr), s.busy = true → decode s.cmd = .ok i →
    (s.inputs = [] → exec i s = .next t → step s = .next (t.record (completionObs t))) ∧
    (∀ rest, s.inputs = .engine :: rest → exec i { s with inputs := rest } = .next t →
      step s = .next (t.record (completionObs t)))

/-- A command the table's decoder reads, placed for the next step, is what the next step runs
(10_state.md R30, R42; the placing is the model's own, notes/assumptions/8.md). -/
def Obligations.PlacedCommandRunsNext : Prop :=
  ∀ (s t : State) (nbits w : Nat) (i : Instr), decodeTableWord nbits w = some i →
    exec i { s with cmd := tableWord nbits w, busy := true, done := false, err := false, ecode := 0 } =
      .next t →
    step (s.withFetchWord nbits w) = .next (t.record (completionObs t))

/-- A word that encodes no command faults with code 1 at its completion and changes nothing else,
whether no event waits or the engine's event is the first one (30_encoding.md R98, 60_exceptions.md
R192; that the engine moves when no event waits and that the record grows are the model's choices,
notes/assumptions/3.md and 4.md). -/
def Obligations.IllegalWordFaultsAtCompletion : Prop :=
  ∀ (s : State) (e : Illegal), s.busy = true → decode s.cmd = .error e →
    (s.inputs = [] → step s = .next { s with
      busy := false, err := true, ecode := 1, trace := .faulted 1 :: s.trace }) ∧
    (∀ rest, s.inputs = .engine :: rest → step s = .next { s with
      busy := false, err := true, ecode := 1, inputs := rest, trace := .faulted 1 :: s.trace })

/-- Every state has a next state: no command, transaction, completion or reset stops the machine
(93_implementation_defined.md section 2, "Nothing in ME128 is stuck"). -/
def Obligations.NothingIsStuck : Prop :=
  (∀ (i : Instr) (s : State), ∃ t, exec i s = .next t) ∧ ∀ s : State, ∃ t, step s = .next t

/-! ## Codec commands -/

/-- `DEC` on a valid sequence that fits: `x[rd]` becomes the sum of `d[i] * 128^(n-1-i)`, and nothing
else changes but `BUSY` and `DONE` (40_codec.md R120). -/
def Obligations.DecDeliversTheValue : Prop :=
  ∀ (s : State) (rd : XReg) (n : Nat), s.dlen.toNat = n → 1 ≤ n → n ≤ s.cfg.dmax →
    (∀ i < n, (s.digit i).toNat < 128) →
    (∑ i ∈ Finset.range n, (s.digit i).toNat * 128 ^ (n - 1 - i)) < 2 ^ s.cfg.W →
    exec (.dec rd) s = .next { s with
      x := s.x.set rd (∑ i ∈ Finset.range n, (s.digit i).toNat * 128 ^ (n - 1 - i)),
      busy := false, done := true }

/-- Where `DEC` faults and with which code, in the order of the tests (40_codec.md R120,
60_exceptions.md R193 to R196, R201). -/
def Obligations.DecFaultsInOrder : Prop :=
  ∀ (s : State) (rd : XReg) (n : Nat), s.dlen.toNat = n →
    (n = 0 → exec (.dec rd) s = .next { s with busy := false, err := true, ecode := 2 }) ∧
    (s.cfg.dmax < n → 0 < n →
      exec (.dec rd) s = .next { s with busy := false, err := true, ecode := 4 }) ∧
    (0 < n → n ≤ s.cfg.dmax → (∃ i < n, 128 ≤ (s.digit i).toNat) →
      exec (.dec rd) s = .next { s with busy := false, err := true, ecode := 3 }) ∧
    (0 < n → n ≤ s.cfg.dmax → (∀ i < n, (s.digit i).toNat < 128) →
      2 ^ s.cfg.W ≤ (∑ i ∈ Finset.range n, (s.digit i).toNat * 128 ^ (n - 1 - i)) →
      exec (.dec rd) s = .next { s with busy := false, err := true, ecode := 5 })

/-- `ENC` of a value from 1 to `2^W - 1`: the minimal number of digits, the digits most significant
first, zeros after them, and nothing else changed but `BUSY` and `DONE` (40_codec.md R121). -/
def Obligations.EncWritesTheMinimalDigits : Prop :=
  ∀ (s : State) (a : XReg), s.cfg.legal → 1 ≤ s.getX a → s.getX a < 2 ^ s.cfg.W →
    ∃ (k : Nat) (t : State), exec (.enc a) s = .next t ∧
      128 ^ (k - 1) ≤ s.getX a ∧ s.getX a < 128 ^ k ∧ 1 ≤ k ∧ k ≤ s.cfg.dmax ∧
      t.dlen.toNat = k ∧
      (∀ i < k, (t.digit i).toNat = s.getX a / 128 ^ (k - 1 - i) % 128) ∧
      (∀ i, k ≤ i → t.digit i = 0) ∧ t.digit 0 ≠ 0 ∧
      t = { s with dbuf := t.dbuf, dlen := t.dlen, busy := false, done := true }

/-- `ENC` of 0 faults with code 6, and no other command raises that code, nor `ENC` of another value
(60_exceptions.md R197). -/
def Obligations.EncodeZeroIsFromEncAlone : Prop :=
  (∀ (s : State) (a : XReg), s.getX a = 0 →
    exec (.enc a) s = .next { s with busy := false, err := true, ecode := 6 }) ∧
  (∀ (i : Instr) (s t : State), s.ecode ≠ 6 → exec i s = .next t → t.ecode = 6 →
    ∃ a, i = .enc a ∧ s.getX a = 0)

/-- `ENCW` of a value of at most `L` digits, `1 <= L <= DMAX`: exactly `L` digits, left-padded with
zeros, zeros after them, and nothing else changed but `BUSY` and `DONE` (40_codec.md R122). -/
def Obligations.EncwWritesExactlyTheWidth : Prop :=
  ∀ (s : State) (a : XReg) (v : BitVec 16), 1 ≤ v.toNat → v.toNat ≤ s.cfg.dmax →
    s.getX a < 128 ^ v.toNat →
    ∃ t : State, exec (.encw a v) s = .next t ∧ t.dlen = v ∧
      (∀ i < v.toNat, (t.digit i).toNat = s.getX a / 128 ^ (v.toNat - 1 - i) % 128) ∧
      (∀ i, v.toNat ≤ i → t.digit i = 0) ∧
      t = { s with dbuf := t.dbuf, dlen := t.dlen, busy := false, done := true }

/-- Where `ENCW` faults and with which code, in the order of the tests (40_codec.md R122,
60_exceptions.md R195, R198, R201). -/
def Obligations.EncwFaultsInOrder : Prop :=
  ∀ (s : State) (a : XReg) (v : BitVec 16),
    ((v.toNat = 0 ∨ s.cfg.dmax < v.toNat) →
      exec (.encw a v) s = .next { s with busy := false, err := true, ecode := 4 }) ∧
    (1 ≤ v.toNat → v.toNat ≤ s.cfg.dmax → 128 ^ v.toNat ≤ s.getX a →
      exec (.encw a v) s = .next { s with busy := false, err := true, ecode := 7 })

/-- `BLKLEN` of a modulus of at least 128: the exact `L` with `128^L <= n < 128^(L+1)`, and nothing
else changed but `BUSY` and `DONE` (40_codec.md R123). -/
def Obligations.BlklenIsTheExactLogarithm : Prop :=
  ∀ (s : State) (rd a : XReg), 128 ≤ s.getX a →
    ∃ len : Nat, 128 ^ len ≤ s.getX a ∧ s.getX a < 128 ^ (len + 1) ∧ 1 ≤ len ∧
      exec (.blklen rd a) s = .next { s with x := s.x.set rd len, busy := false, done := true }

/-! ## Modular arithmetic commands -/

/-- `MODEXP` by the reference algorithm delivers exactly `b^e mod n`, whatever registers coincide, and
changes nothing else but `BUSY` and `DONE` (41_modular.md R140, R143). -/
def Obligations.ModexpDeliversThePowerModuloN : Prop :=
  ∀ (s : State) (rd a b c : XReg), 128 ≤ s.getX c → s.getX a < s.getX c →
    exec (.modexp rd a b c) s = .next { s with
      x := s.x.set rd (s.getX a ^ s.getX b % s.getX c), busy := false, done := true }

/-- Where `MODEXP` faults and with which code, in the order of the tests (41_modular.md R140,
60_exceptions.md R200, R201). -/
def Obligations.ModexpFaultsInOrder : Prop :=
  ∀ (s : State) (rd a b c : XReg),
    (s.getX c < 128 →
      exec (.modexp rd a b c) s = .next { s with busy := false, err := true, ecode := 8 }) ∧
    (128 ≤ s.getX c → s.getX c ≤ s.getX a →
      exec (.modexp rd a b c) s = .next { s with busy := false, err := true, ecode := 9 })

/-- A modulus below 128, zero included, faults `BLKLEN`, `MODEXP` and `MODRED` with code 8, and `MUL`
never does (60_exceptions.md R199). -/
def Obligations.SmallModulusFaults : Prop :=
  (∀ (s : State) (rd a b c : XReg), s.getX c < 128 →
    exec (.blklen rd c) s = .next { s with busy := false, err := true, ecode := 8 } ∧
    exec (.modexp rd a b c) s = .next { s with busy := false, err := true, ecode := 8 } ∧
    exec (.modred rd a c) s = .next { s with busy := false, err := true, ecode := 8 }) ∧
  (∀ (s t : State) (rd a b : XReg), s.ecode ≠ 8 → exec (.mul rd a b) s = .next t → t.ecode ≠ 8)

/-- `MODRED` delivers `v mod n` for every value and every modulus of at least 128 and changes nothing
else but `BUSY` and `DONE` (41_modular.md R141). -/
def Obligations.ModredDeliversTheRemainder : Prop :=
  ∀ (s : State) (rd a c : XReg), 128 ≤ s.getX c →
    exec (.modred rd a c) s = .next { s with
      x := s.x.set rd (s.getX a % s.getX c), busy := false, done := true }

/-- `MUL` delivers the exact product where it is below `2^W`, and faults with code 5 where it is not
(41_modular.md R142). -/
def Obligations.MulIsExactOrOverflows : Prop :=
  ∀ (s : State) (rd a b : XReg),
    (s.getX a * s.getX b < 2 ^ s.cfg.W → exec (.mul rd a b) s = .next { s with
      x := s.x.set rd (s.getX a * s.getX b), busy := false, done := true }) ∧
    (2 ^ s.cfg.W ≤ s.getX a * s.getX b →
      exec (.mul rd a b) s = .next { s with busy := false, err := true, ecode := 5 })

/-- No result is delivered modulo `2^W`: where the exact result of a `DEC` or a `MUL` is `2^W` or more,
the command ends in a fault and writes no register, for a `MUL` with code 5; only those two raise
`OVERFLOW`; and in a well-formed machine every command leaves every register below `2^W`
(41_modular.md R151). -/
def Obligations.NoCommandWraps : Prop :=
  (∀ (s : State) (rd a b : XReg), 2 ^ s.cfg.W ≤ s.getX a * s.getX b →
    ∃ t, exec (.mul rd a b) s = .next t ∧ t.x = s.x ∧ t.err = true ∧ t.ecode = 5) ∧
  (∀ (s : State) (rd : XReg) (n : Nat), s.dlen.toNat = n →
    2 ^ s.cfg.W ≤ (∑ i ∈ Finset.range n, (s.digit i).toNat * 128 ^ (n - 1 - i)) →
    ∃ t, exec (.dec rd) s = .next t ∧ t.x = s.x ∧ t.err = true) ∧
  ∀ (i : Instr) (s t : State), exec i s = .next t →
    (s.ecode ≠ 5 → t.ecode = 5 →
      (∃ rd, i = .dec rd) ∨ ∃ rd a b, i = .mul rd a b) ∧
    (s.cfg.legal → s.regsFit → t.regsFit)

/-! ## Move and compare commands -/

/-- `MOV` copies all of the register and changes nothing else but `BUSY` and `DONE`
(42_move_compare.md R160). -/
def Obligations.MovCopiesTheRegister : Prop :=
  ∀ (s : State) (rd a : XReg),
    exec (.mov rd a) s = .next { s with x := s.x.set rd (s.getX a), busy := false, done := true }

/-- `LDI` writes the zero-extended immediate to all of the register and changes nothing else but `BUSY`
and `DONE` (42_move_compare.md R161). -/
def Obligations.LdiLoadsTheImmediate : Prop :=
  ∀ (s : State) (rd : XReg) (v : BitVec 16),
    exec (.ldi rd v) s = .next { s with x := s.x.set rd v.toNat, busy := false, done := true }

/-- `CMP` writes `EQ` and `LT` of the unsigned comparison, both always, and changes nothing else but
`BUSY` and `DONE` (42_move_compare.md R162). -/
def Obligations.CmpWritesBothFlags : Prop :=
  ∀ (s : State) (a b : XReg),
    exec (.cmp a b) s = .next { s with
      eq := decide (s.getX a = s.getX b), lt := decide (s.getX a < s.getX b),
      busy := false, done := true }

/-! ## Laws of the command set -/

/-- `ENC` then `DEC` restores the value, for every value from 1 to `2^W - 1`; so does `ENCW` of any
admitted width that does not fault, 0 included; no command of the pair faults (40_codec.md R124). -/
def Obligations.EncodeThenDecodeRestoresTheValue : Prop :=
  ∀ (s : State) (a rd : XReg), s.cfg.legal → s.getX a < 2 ^ s.cfg.W →
    (1 ≤ s.getX a → ∃ t u : State, exec (.enc a) s = .next t ∧ exec (.dec rd) t = .next u ∧
      u.getX rd = s.getX a ∧ t.err = s.err ∧ u.err = s.err ∧ u.done = true) ∧
    (∀ v : BitVec 16, 1 ≤ v.toNat → v.toNat ≤ s.cfg.dmax → s.getX a < 128 ^ v.toNat →
      ∃ t u : State, exec (.encw a v) s = .next t ∧ exec (.dec rd) t = .next u ∧
      u.getX rd = s.getX a ∧ t.err = s.err ∧ u.err = s.err ∧ u.done = true)

/-- `DEC` then an encoder, for a valid sequence of `n` digits whose value fits. With `z` leading zero
digits and a non-zero digit after them, `ENC` gives the sequence without them (`z = 0`: the same
sequence); with every digit zero, `DEC` gives 0 and `ENC` faults; `ENCW` of the original length
restores the sequence exactly and raises no fault. `DEC` completes without a fault, and so does `ENC`
where a digit is not zero. Both encoders clear the entries after their result (40_codec.md R125). -/
def Obligations.DecodeThenEncodeRestoresTheDigits : Prop :=
  ∀ (s : State) (rd : XReg) (n : Nat), s.cfg.legal → s.dlen.toNat = n → 1 ≤ n → n ≤ s.cfg.dmax →
    (∀ i < n, (s.digit i).toNat < 128) →
    (∑ i ∈ Finset.range n, (s.digit i).toNat * 128 ^ (n - 1 - i)) < 2 ^ s.cfg.W →
    ∃ t : State, exec (.dec rd) s = .next t ∧ t.done = true ∧ t.err = s.err ∧ t.ecode = s.ecode ∧
      (∀ z < n, (∀ i < z, s.digit i = 0) → s.digit z ≠ 0 →
        ∃ u : State, exec (.enc rd) t = .next u ∧
          u.done = true ∧ u.err = s.err ∧ u.ecode = s.ecode ∧ u.dlen.toNat = n - z ∧
          (∀ i < n - z, u.digit i = s.digit (i + z)) ∧ (∀ i, n - z ≤ i → u.digit i = 0)) ∧
      ((∀ i < n, s.digit i = 0) → t.getX rd = 0 ∧
        exec (.enc rd) t = .next { t with busy := false, err := true, ecode := 6 }) ∧
      ∃ u : State, exec (.encw rd s.dlen) t = .next u ∧
        u.done = true ∧ u.err = s.err ∧ u.ecode = s.ecode ∧ u.dlen = s.dlen ∧
        (∀ i < n, u.digit i = s.digit i) ∧ (∀ i, n ≤ i → u.digit i = 0)

/-- A block of `BLKLEN(n)` valid digits decodes to a value below `n`, which `MODEXP` with modulus `n`
admits as a base; the sequence of `BLKLEN(n) + 1` digits 127 stands for a value that is not
(40_codec.md R126). -/
def Obligations.BlockLengthFitsTheModulus : Prop :=
  ∀ (s : State) (rb rn rd rq re : XReg) (t : State), s.regsFit → 128 ≤ s.getX rn →
    exec (.blklen rb rn) s = .next t →
    (∀ p : State, p.cfg = s.cfg → p.getX rn = s.getX rn → rd ≠ rn → p.dlen.toNat = t.getX rb →
      (∀ i < t.getX rb, (p.digit i).toNat < 128) →
      ∃ q r : State, exec (.dec rd) p = .next q ∧ q.getX rd < s.getX rn ∧ q.err = p.err ∧
        exec (.modexp rq rd re rn) q = .next r ∧ r.done = true ∧ r.err = p.err) ∧
    s.getX rn ≤ ∑ i ∈ Finset.range (t.getX rb + 1), 127 * 128 ^ (t.getX rb - i)

/-- After a `MODEXP` or a `MODRED` on admitted operands the result is below the modulus, so a further
`MODEXP` takes it as its base with a modulus register of the same value (41_modular.md R145, which says
the second part of `MODEXP`; of `MODRED` it follows in the same way). -/
def Obligations.ResultsStayBelowTheModulus : Prop :=
  ∀ (s : State) (rd a b c : XReg), 128 ≤ s.getX c →
    (∃ t, exec (.modred rd a c) s = .next t ∧ t.getX rd < s.getX c ∧
      ∀ rq re rm : XReg, t.getX rm = s.getX c → ∃ u, exec (.modexp rq rd re rm) t = .next u ∧
        u.err = t.err ∧ u.done = true) ∧
    (s.getX a < s.getX c → ∃ t, exec (.modexp rd a b c) s = .next t ∧ t.getX rd < s.getX c ∧
      ∀ rq re rm : XReg, t.getX rm = s.getX c → ∃ u, exec (.modexp rq rd re rm) t = .next u ∧
        u.err = t.err ∧ u.done = true)

/-- With exponent 1, `MODEXP` does what `MODRED` does on a base below the modulus, and faults with
code 9 where `MODRED` reduces (41_modular.md R147). -/
def Obligations.ExponentOneIsReductionBelowTheModulus : Prop :=
  ∀ (s : State) (rd a b c : XReg), s.getX b = 1 → 128 ≤ s.getX c →
    (s.getX a < s.getX c → exec (.modexp rd a b c) s = exec (.modred rd a c) s ∧
      exec (.modexp rd a b c) s =
        .next { s with x := s.x.set rd (s.getX a), busy := false, done := true }) ∧
    (s.getX c ≤ s.getX a →
      exec (.modexp rd a b c) s = .next { s with busy := false, err := true, ecode := 9 } ∧
      exec (.modred rd a c) s = .next { s with
        x := s.x.set rd (s.getX a % s.getX c), busy := false, done := true })

/-- An exponent of 0 gives 1 for every base, 0 included, and a base of 0 gives 0 for every exponent of
at least 1 (41_modular.md R153). -/
def Obligations.ExponentiationAtZero : Prop :=
  ∀ (s : State) (rd a b c : XReg), 128 ≤ s.getX c →
    (s.getX b = 0 → s.getX a < s.getX c → exec (.modexp rd a b c) s =
      .next { s with x := s.x.set rd 1, busy := false, done := true }) ∧
    (s.getX a = 0 → 1 ≤ s.getX b → exec (.modexp rd a b c) s =
      .next { s with x := s.x.set rd 0, busy := false, done := true })

/-! ## Frames and rules about the whole machine -/

/-- A command writes at most one X register, its destination; `ENC`, `ENCW` and `CMP` write none
(10_state.md R22). -/
def Obligations.OnlyTheDestinationRegisterChanges : Prop :=
  ∀ (i : Instr) (s t : State) (q : XReg), exec i s = .next t →
    (match i with
      | .dec rd | .blklen rd _ | .modexp rd _ _ _ | .modred rd _ _ | .mul rd _ _ | .mov rd _
      | .ldi rd _ => q ≠ rd
      | .enc _ | .encw _ _ | .cmp _ _ => True) →
    t.getX q = s.getX q

/-- Only `ENC` and `ENCW` write the digit buffer and `DLEN`; and `DEC` reads no entry at index `DLEN` or
above, so two states that differ in such entries alone get the same result or the same fault
(10_state.md R39, 40_codec.md R120). -/
def Obligations.OnlyEncodersWriteTheDigitBuffer : Prop :=
  (∀ (i : Instr) (s t : State), exec i s = .next t →
    (∀ a, i ≠ .enc a) → (∀ a v, i ≠ .encw a v) → t.dbuf = s.dbuf ∧ t.dlen = s.dlen) ∧
  (∀ (s t : State) (rd : XReg) (m : Memory), exec (.dec rd) s = .next t →
    (∀ i < s.dlen.toNat, ({ s with dbuf := m } : State).digit i = s.digit i) →
    exec (.dec rd) { s with dbuf := m } = .next { t with dbuf := m })

/-- No command changes the parameter, `CMD`, the interrupt enables, the events to come or the record of
past events, and every command ends with `BUSY = 0` (10_state.md R42, 60_exceptions.md R190). -/
def Obligations.CommandsLeaveTheRestAlone : Prop :=
  ∀ (i : Instr) (s t : State), exec i s = .next t →
    t.cfg = s.cfg ∧ t.cmd = s.cmd ∧ t.ieDone = s.ieDone ∧ t.ieErr = s.ieErr ∧
    t.inputs = s.inputs ∧ t.trace = s.trace ∧ t.busy = false

/-- A fault appears only in a completion, and that step changes `BUSY`, `ERR` and `ECODE` and nothing
else of ME128, leaving phase `HALT`; the model's own input list and record move on as at every step
(60_exceptions.md R190, R202; notes/assumptions/2.md and 4.md). -/
def Obligations.FaultsHaveNoPartialEffect : Prop :=
  ∀ s t : State, step s = .next t → s.err = false → t.err = true →
    s.busy = true ∧ (s.inputs = [] ∨ s.inputs.head? = some .engine) ∧
    1 ≤ t.ecode.toNat ∧ t.ecode.toNat ≤ 9 ∧ t.phase = .halt ∧
    t = { s with busy := false, err := true, ecode := t.ecode,
                 inputs := s.inputs.tail, trace := .faulted t.ecode :: s.trace }

/-- Only the successful completion of a `CMP` writes `EQ` and `LT`, and reset clears them; and no
command reads them: a command other than `CMP` does the same whatever they hold, and keeps them, and
`CMP` gives the same result whatever they held (10_state.md R26). -/
def Obligations.OnlyCmpWritesTheFlags : Prop :=
  (∀ s t : State, step s = .next t → (t.eq ≠ s.eq ∨ t.lt ≠ s.lt) →
    s.inputs.head? = some .reset ∨
    (s.busy = true ∧ t.busy = false ∧ t.done = true ∧ ∃ a b, decode s.cmd = .ok (.cmp a b))) ∧
  (∀ (s t : State), s.inputs.head? = some .reset → step s = .next t → t.eq = false ∧ t.lt = false) ∧
  (∀ (i : Instr) (s t : State) (e l : Bool), exec i s = .next t →
    ((∀ a b, i ≠ .cmp a b) → exec i { s with eq := e, lt := l } = .next { t with eq := e, lt := l }) ∧
    ((∃ a b, i = .cmp a b) → exec i { s with eq := e, lt := l } = .next t))

/-- Every change of phase is one of these: idle to busy by an issue, busy to idle by a completion with
`DONE = 1`, busy to halt by a faulting completion, halt to idle by a `STATUS` write with bit 2 set, any
phase to idle by reset. In particular only a completion or a reset leaves phase `BUSY`
(10_state.md R41). -/
def Obligations.NoOtherPhaseTransition : Prop :=
  ∀ s t : State, s.statusOk → step s = .next t → t.phase ≠ s.phase →
    (s.inputs.head? = some .reset ∧ t.phase = .idle) ∨
    (s.phase = .idle ∧ t.phase = .busy ∧ ∃ w, s.inputs.head? = some (.write 0x0008 4 w) ∧ t.cmd = w) ∨
    (s.phase = .busy ∧ (s.inputs = [] ∨ s.inputs.head? = some .engine) ∧
      ((t.phase = .idle ∧ t.done = true) ∨ (t.phase = .halt ∧ t.ecode ≠ 0))) ∨
    (s.phase = .halt ∧ t.phase = .idle ∧
      ∃ w : Word, s.inputs.head? = some (.write 0x000C 4 w) ∧ w.getLsbD 2 = true)

/-- In phase `HALT` the outstanding fault stays as it is, its code and its word included, until the host
clears `ERR` or a reset comes: no command can be issued and none can run (60_exceptions.md R204). -/
def Obligations.HaltKeepsTheFault : Prop :=
  ∀ s t : State, s.phase = .halt → step s = .next t → s.inputs.head? ≠ some .reset →
    (∀ w : Word, w.getLsbD 2 = true → s.inputs.head? ≠ some (.write 0x000C 4 w)) →
    t.phase = .halt ∧ t.ecode = s.ecode ∧ t.cmd = s.cmd

/-! ## The host's side -/

/-- A refused access changes nothing, and a refused read returns 0 (20_memory.md R70). -/
def Obligations.RefusedAccessChangesNothing : Prop :=
  ∀ (s : State) (off : Offset) (size : Nat) (v : Word),
    ((busRead s off size).2 = true → (busRead s off size).1 = 0) ∧
    ((busWrite s off size v).2 = true → (busWrite s off size v).1 = s)

/-- Which accesses are admitted, by offset, size and phase, on a machine of an admitted width
(20_memory.md R61, R67, R70, R71). -/
def Obligations.AccessesAdmittedByMapAndPhase : Prop :=
  ∀ (s : State) (off : Offset) (size : Nat) (v : Word), s.cfg.legal →
    ((busRead s off size).2 = false ↔ size = 4 ∧ off.toNat % 4 = 0 ∧
      (off.toNat ≤ 0x0010 ∨ (s.phase ≠ .busy ∧
        (off.toNat = 0x0014 ∨ (∃ k < s.cfg.ndw, off.toNat = 0x0400 + 4 * k) ∨
          ∃ i < 4, ∃ j < s.cfg.nw, off.toNat = 0x1000 + 0x200 * i + 4 * j)))) ∧
    ((busWrite s off size v).2 = false ↔ size = 4 ∧ off.toNat % 4 = 0 ∧
      (off.toNat = 0x000C ∨ off.toNat = 0x0010 ∨ (off.toNat = 0x0008 ∧ s.phase = .idle) ∨
        (s.phase ≠ .busy ∧
          (off.toNat = 0x0014 ∨ (∃ k < s.cfg.ndw, off.toNat = 0x0400 + 4 * k) ∨
            ∃ i < 4, ∃ j < s.cfg.nw, off.toNat = 0x1000 + 0x200 * i + 4 * j))))

/-- A step at a read event answers what `busRead` gives and changes no state of ME128, admitted or
refused; a step at a write event answers the error bit of `busWrite` and leaves the state of `busWrite`:
so what is said of `busRead` and `busWrite` is said of the step (20_memory.md R69, R70, R82; the input
list and the record are the model's own, notes/assumptions/2.md and 4.md). -/
def Obligations.TransactionsStepThroughTheBus : Prop :=
  ∀ (s : State) (off : Offset) (size : Nat) (rest : List Event),
    (s.inputs = .read off size :: rest → step s = .next { s with
      inputs := rest
      trace := .response (busRead s off size).1 (busRead s off size).2 :: s.trace }) ∧
    ∀ v : Word, s.inputs = .write off size v :: rest → step s = .next { (busWrite s off size v).1 with
      inputs := rest
      trace := .response 0 (busWrite s off size v).2 :: s.trace }

/-- A write of word `j` of a register replaces those 32 bits: the word reads back as written, every
other word of every register reads as before, and nothing but the X file changes
(20_memory.md R62, 10_state.md R23). -/
def Obligations.RegisterWordWriteReadsBack : Prop :=
  ∀ (s : State) (r : XReg) (j : Nat) (v : Word), s.cfg.legal → s.phase ≠ .busy → j < s.cfg.nw →
    ∃ t : State, busWrite s (BitVec.ofNat 13 (0x1000 + 0x200 * r.num + 4 * j)) 4 v = (t, false) ∧
      busRead t (BitVec.ofNat 13 (0x1000 + 0x200 * r.num + 4 * j)) 4 = (v, false) ∧
      (∀ (q : XReg) (k : Nat), k < s.cfg.nw → (q ≠ r ∨ k ≠ j) →
        busRead t (BitVec.ofNat 13 (0x1000 + 0x200 * q.num + 4 * k)) 4 =
          busRead s (BitVec.ofNat 13 (0x1000 + 0x200 * q.num + 4 * k)) 4) ∧
      (∀ q, q ≠ r → t.getX q = s.getX q) ∧
      (∀ b : Nat, (t.getX r).testBit b =
        if 32 * j ≤ b ∧ b < 32 * j + 32 then v.getLsbD (b - 32 * j) else (s.getX r).testBit b) ∧
      t = { s with x := t.x }

/-- A write of DBUF word `k` sets its four entries from the four bytes of the data, skipping those that
do not exist, and leaves every other entry and everything else alone; a read returns the four entries,
0 for those that do not exist (20_memory.md R63, 10_state.md R40). -/
def Obligations.DigitWordWriteSetsFourEntries : Prop :=
  ∀ (s : State) (k : Nat) (v : Word), s.cfg.legal → s.phase ≠ .busy → k < s.cfg.ndw →
    ∃ t : State, busWrite s (BitVec.ofNat 13 (0x0400 + 4 * k)) 4 v = (t, false) ∧
      (∀ i, t.digit i = if 4 * k ≤ i ∧ i < 4 * k + 4 ∧ i < s.cfg.dmax
        then v.extractLsb' (8 * (i - 4 * k)) 8 else s.digit i) ∧
      (busRead t (BitVec.ofNat 13 (0x0400 + 4 * k)) 4 =
        (t.digit (4 * k + 3) ++ t.digit (4 * k + 2) ++ t.digit (4 * k + 1) ++ t.digit (4 * k),
          false)) ∧
      (∀ i, s.cfg.dmax ≤ i → t.digit i = 0) ∧
      t = { s with dbuf := t.dbuf }

/-- A `STATUS` write in any phase clears `DONE` where bit 1 is set, `ERR` and `ECODE` where bit 2 is,
and does nothing else; clearing `ERR` in phase `HALT` gives phase `IDLE` (10_state.md R32). -/
def Obligations.StatusWriteClearsWhatItNames : Prop :=
  ∀ (s : State) (v : Word),
    busWrite s 0x000C 4 v = ({ s with
      done := s.done && !v.getLsbD 1, err := s.err && !v.getLsbD 2,
      ecode := if v.getLsbD 2 then 0 else s.ecode }, false) ∧
    (s.phase = .halt → v.getLsbD 2 = true → (busWrite s 0x000C 4 v).1.phase = .idle)

/-- `CTRL` in any phase: a write sets the two enables from bits 0 and 1, a read returns them with every
other bit 0, and after reset it reads 0 (10_state.md R33). -/
def Obligations.ControlRegisterHoldsTheEnables : Prop :=
  (∀ (s : State) (v : Word),
    busWrite s 0x0010 4 v = ({ s with ieDone := v.getLsbD 0, ieErr := v.getLsbD 1 }, false) ∧
    (busRead s 0x0010 4).2 = false ∧
    (busRead s 0x0010 4).1.toNat = (if s.ieDone then 1 else 0) + (if s.ieErr then 2 else 0)) ∧
  ∀ c : Config, busRead (State.resetWith c) 0x0010 4 = (0, false)

/-- `DLEN` outside phase `BUSY`: a write stores the low 16 bits whatever the value and nothing else, and
a read returns them with the upper bits 0 (10_state.md R34). -/
def Obligations.LengthRegisterStoresAnyValue : Prop :=
  ∀ (s : State) (v : Word), s.phase ≠ .busy →
    ∃ t : State, busWrite s 0x0014 4 v = (t, false) ∧ t.dlen.toNat = v.toNat % 65536 ∧
      t = { s with dlen := t.dlen } ∧ (busRead t 0x0014 4).2 = false ∧
      (busRead t 0x0014 4).1.toNat = v.toNat % 65536

/-- Every word written to `CMD` in phase `IDLE` is an issue; in the other phases the write is refused;
a read returns the stored word in every phase (10_state.md R30). -/
def Obligations.CommandWriteIssuesOnlyWhenIdle : Prop :=
  ∀ (s : State) (w : Word),
    (s.phase = .idle →
      busWrite s 0x0008 4 w = ({ s with cmd := w, busy := true, done := false }, false)) ∧
    (s.phase ≠ .idle → busWrite s 0x0008 4 w = (s, true)) ∧
    busRead s 0x0008 4 = (s.cmd, false)

/-- What `STATUS` reads as in any phase, bit by bit, reserved bits 0 (10_state.md R31). -/
def Obligations.StatusReadLayout : Prop :=
  ∀ s : State, ∃ w : Word, busRead s 0x000C 4 = (w, false) ∧
    w.getLsbD 0 = s.busy ∧ w.getLsbD 1 = s.done ∧ w.getLsbD 2 = s.err ∧ w.getLsbD 3 = false ∧
    w.getLsbD 4 = s.eq ∧ w.getLsbD 5 = s.lt ∧ w.extractLsb' 6 2 = 0 ∧
    w.extractLsb' 8 4 = s.ecode ∧ w.extractLsb' 12 20 = 0

/-- `ID` and `CFG` read their constants in every phase and refuse every write (10_state.md R28, R29). -/
def Obligations.IdentityRegistersAreConstant : Prop :=
  ∀ (s : State) (v : Word), s.cfg.legal →
    busRead s 0x0000 4 = (0x4D458001, false) ∧ busWrite s 0x0000 4 v = (s, true) ∧
    (busRead s 0x0004 4).2 = false ∧
    (busRead s 0x0004 4).1.toNat = s.cfg.W + 65536 * ((s.cfg.W + 6) / 7) ∧
    busWrite s 0x0004 4 v = (s, true)

/-- The interrupt output is `(DONE and IE_DONE) or (ERR and IE_ERR)`, and 0 after reset
(10_state.md R44). -/
def Obligations.InterruptIsALevelOfTheState : Prop :=
  (∀ s : State, s.irq = true ↔
    (s.done = true ∧ s.ieDone = true) ∨ (s.err = true ∧ s.ieErr = true)) ∧
  ∀ c : Config, (State.resetWith c).irq = false

/-- `WRX`: outside phase `BUSY`, the `NW` writes of the expansion leave the register holding the integer
and change nothing else of ME128 (43_host_sequences.md R171, which admits any order of the writes;
this is the rising one). -/
def Obligations.WrxLeavesTheInteger : Prop :=
  ∀ (s : State) (r : XReg) (v : Nat), s.Inv → s.phase ≠ .busy → v < 2 ^ s.cfg.W →
    s.inputs = wrx s.cfg r v →
    ∃ t : State, Host.Core.run core s.cfg.nw s = .next t ∧
      t = { s with x := s.x.set r v, inputs := [], trace := t.trace }

/-! ## Reset -/

/-- A reset in any phase, a running command included, gives every piece of state its reset value; the
parameter stays, and so do the model's own events to come and record
(70_reset_and_hazards.md R230, R231, R232; notes/assumptions/2.md and 4.md). -/
def Obligations.ResetClearsEverything : Prop :=
  ∀ (s : State) (rest : List Event), s.inputs = .reset :: rest →
    step s = .next
      { cfg := s.cfg, x := ⟨0, 0, 0, 0⟩, dbuf := [], dlen := 0, cmd := 0, busy := false, done := false,
        err := false, eq := false, lt := false, ecode := 0, ieDone := false, ieErr := false,
        inputs := rest, trace := .reset :: s.trace }

/-- The values of 10_state.md R45, for every width: registers, digits, `DLEN`, `CMD`, the status bits,
and what `STATUS`, `CTRL`, `ID` and `CFG` read as. -/
def Obligations.ResetValuesOfTheSpec : Prop :=
  ∀ c : Config, c.legal →
    (∀ r, (State.resetWith c).getX r = 0) ∧ (∀ i, (State.resetWith c).digit i = 0) ∧
    (State.resetWith c).dlen = 0 ∧ (State.resetWith c).cmd = 0 ∧
    (State.resetWith c).busy = false ∧ (State.resetWith c).done = false ∧
    (State.resetWith c).err = false ∧ (State.resetWith c).ecode = 0 ∧
    (State.resetWith c).eq = false ∧ (State.resetWith c).lt = false ∧
    (State.resetWith c).ieDone = false ∧ (State.resetWith c).ieErr = false ∧
    (State.resetWith c).phase = .idle ∧ (State.resetWith c).irq = false ∧
    busRead (State.resetWith c) 0x000C 4 = (0, false) ∧
    busRead (State.resetWith c) 0x0010 4 = (0, false) ∧
    busRead (State.resetWith c) 0x0000 4 = (0x4D458001, false) ∧
    busRead (State.resetWith c) 0x0004 4 =
      (BitVec.ofNat 16 ((c.W + 6) / 7) ++ BitVec.ofNat 16 c.W, false)

/-- After reset the machine is idle and accepts a command, and what each command does as the first one
issued, for every width (70_reset_and_hazards.md R235). -/
def Obligations.FirstCommandAfterReset : Prop :=
  ∀ (c : Config) (w : Word) (s : State), c.legal → s = (State.resetWith c).issue w →
    (State.resetWith c).phase = .idle ∧ busWrite (State.resetWith c) 0x0008 4 w = (s, false) ∧
    ∀ (rd a b m : XReg) (v : BitVec 16),
      exec (.dec rd) s = .next { s with busy := false, err := true, ecode := 2 } ∧
      exec (.enc a) s = .next { s with busy := false, err := true, ecode := 6 } ∧
      (1 ≤ v.toNat → v.toNat ≤ c.dmax → ∃ t, exec (.encw a v) s = .next t ∧ t.err = false ∧
        t.done = true ∧ t.dlen = v ∧ ∀ i, t.digit i = 0) ∧
      exec (.blklen rd a) s = .next { s with busy := false, err := true, ecode := 8 } ∧
      exec (.modexp rd a b m) s = .next { s with busy := false, err := true, ecode := 8 } ∧
      exec (.modred rd a m) s = .next { s with busy := false, err := true, ecode := 8 } ∧
      exec (.mul rd a b) s = .next { s with busy := false, done := true } ∧
      exec (.mov rd a) s = .next { s with busy := false, done := true } ∧
      exec (.ldi rd v) s =
        .next { s with x := s.x.set rd v.toNat, busy := false, done := true } ∧
      exec (.cmp a b) s = .next { s with eq := true, busy := false, done := true }

/-- The reset state of every admitted width is well formed, `State.reset` among them
(10_state.md R36, R45; the width of `State.reset` is the model's choice, notes/assumptions/1.md). -/
def Obligations.ResetIsWellFormed : Prop :=
  (∀ c : Config, c.legal → (State.resetWith c).Inv) ∧ State.reset.Inv

/-! ## Invariants -/

/-- The four invariants of the status bits hold after reset and every step keeps them
(10_state.md R36). -/
def Obligations.StepsKeepTheStatusInvariants : Prop :=
  (∀ c : Config, (State.resetWith c).statusOk) ∧
  ∀ s t : State, s.statusOk → step s = .next t → t.statusOk

/-- Every step keeps the machine's invariant: an admitted width, the status bits, a fault code of the
nine or 0, every register below `2^W`, and the digit buffer in its canonical form with only entries
that exist (10_state.md R21, R36, R37, R40, 41_modular.md R151). -/
def Obligations.StepsKeepTheMachineWellFormed : Prop :=
  ∀ s t : State, s.Inv → step s = .next t → t.Inv

/-- No step changes the parameter, a reset included (70_reset_and_hazards.md R232). -/
def Obligations.NoStepChangesTheWidth : Prop :=
  ∀ s t : State, step s = .next t → t.cfg = s.cfg

/-- Whatever the host reads and writes while a command runs, the command's outcome is the one of the
state at issue: after any transactions in phase `BUSY` the machine is still busy with the same command
and the same operands, and the completion gives the same registers, digits, flags and fault
(10_state.md R42, 00_scope.md R12, 20_memory.md R71). -/
def Obligations.OutcomeIsThatOfTheStateAtIssue : Prop :=
  ∀ (s : State) (evs rest : List Event), s.statusOk → s.busy = true → s.inputs = evs ++ rest →
    (∀ e ∈ evs, (∃ off size, e = .read off size) ∨ ∃ off size v, e = .write off size v) →
    ∃ t : State, Host.Core.run core evs.length s = .next t ∧ t.inputs = rest ∧ t.busy = true ∧
      t.cmd = s.cmd ∧ t.x = s.x ∧ t.dbuf = s.dbuf ∧ t.dlen = s.dlen ∧
      ∀ u : State, evaluate s = .next u → ∃ u' : State, evaluate t = .next u' ∧
        u'.x = u.x ∧ u'.dbuf = u.dbuf ∧ u'.dlen = u.dlen ∧ u'.eq = u.eq ∧ u'.lt = u.lt ∧
        u'.done = u.done ∧ u'.err = u.err ∧ u'.ecode = u.ecode ∧ u'.busy = u.busy

/-- A running command completes once the events that wait have come, unless one of them is a reset: the
machine leaves phase `BUSY` within one step more than the events that wait (70_reset_and_hazards.md
R245; that the engine moves when no event waits is the model's choice, notes/assumptions/3.md). -/
def Obligations.RunningCommandsComplete : Prop :=
  ∀ s : State, s.busy = true → .reset ∉ s.inputs →
    ∃ k ≤ s.inputs.length + 1, ∃ t : State, Host.Core.run core k s = .next t ∧ t.busy = false
end

