-- ==== Sys2Proof/Laws/Decode.lean ====
section
/-! SUPPORT. The fields of an encoded word, and register numbers there and back. -/

namespace Sys2Proof

@[simp] theorem XReg.ofNum_num (r : XReg) : XReg.ofNum r.num = r := by cases r <;> rfl

theorem XReg.num_lt (r : XReg) : r.num < 4 := by cases r <;> decide

theorem XReg.num_ofNum {n : Nat} (h : n < 4) : (XReg.ofNum n).num = n := by
  interval_cases n <;> rfl

@[simp] theorem XReg.field_toNat (r : XReg) : r.field.toNat = r.num := by cases r <;> rfl

/-- Concatenation as a sum: the form in which `omega` can read fields off a word. -/
theorem toNat_concat {m n : Nat} (x : BitVec m) (y : BitVec n) :
    (x ++ y).toNat = x.toNat * 2 ^ n + y.toNat := by
  rw [BitVec.toNat_append, ← Nat.shiftLeft_add_eq_or_of_lt y.isLt, Nat.shiftLeft_eq]

/-- A word of format R as the sum of 30_encoding.md R100. -/
theorem toNat_wordR (op : BitVec 8) (rd rs1 rs2 rs3 : BitVec 4) :
    (wordR op rd rs1 rs2 rs3).toNat =
      op.toNat + rd.toNat * 2 ^ 8 + rs1.toNat * 2 ^ 12 + rs2.toNat * 2 ^ 16 + rs3.toNat * 2 ^ 20 := by
  unfold wordR
  simp only [toNat_concat, BitVec.toNat_ofNat]
  omega

/-- A word of format I as the sum of 30_encoding.md R100. -/
theorem toNat_wordI (op : BitVec 8) (rd rs1 : BitVec 4) (imm16 : BitVec 16) :
    (wordI op rd rs1 imm16).toNat =
      op.toNat + rd.toNat * 2 ^ 8 + rs1.toNat * 2 ^ 12 + imm16.toNat * 2 ^ 16 := by
  unfold wordI
  simp only [toNat_concat]
  omega

/-- The fields of a word of format R are the fields it was made of. -/
theorem fieldsOf_wordR (op : BitVec 8) (rd rs1 rs2 rs3 : BitVec 4) :
    fieldsOf (wordR op rd rs1 rs2 rs3) =
      { op := op, rd := rd, rs1 := rs1, rs2 := rs2, rs3 := rs3, zero := 0,
        imm16 := 0#8 ++ rs3 ++ rs2 } := by
  unfold fieldsOf
  congr 1 <;> apply BitVec.eq_of_toNat_eq <;>
    simp only [BitVec.extractLsb'_toNat, toNat_wordR, Nat.shiftRight_eq_div_pow, toNat_concat,
      BitVec.ofNat_eq_ofNat, BitVec.toNat_ofNat] <;>
    omega

/-- The fields of a word of format I. -/
theorem fieldsOf_wordI (op : BitVec 8) (rd rs1 : BitVec 4) (imm16 : BitVec 16) :
    fieldsOf (wordI op rd rs1 imm16) =
      { op := op, rd := rd, rs1 := rs1, rs2 := imm16.extractLsb' 0 4, rs3 := imm16.extractLsb' 4 4,
        zero := imm16.extractLsb' 8 8, imm16 := imm16 } := by
  unfold fieldsOf
  congr 1 <;> apply BitVec.eq_of_toNat_eq <;>
    simp only [BitVec.extractLsb'_toNat, toNat_wordI, Nat.shiftRight_eq_div_pow] <;>
    omega

end Sys2Proof
end

