-- ==== Sys2Proof/Laws/State.lean ====
section
/-! SUPPORT. One lemma for each field under each update of the state, and the X file's read after write. -/

namespace Sys2Proof.Machine

/-! ## The X file -/

@[simp] theorem XFile.get_set_same (f : XFile) (r : XReg) (v : Nat) : (f.set r v).get r = v := by
  cases r <;> rfl

@[simp] theorem XFile.get_set_other (f : XFile) {r q : XReg} (v : Nat) (h : q ≠ r) :
    (f.set r v).get q = f.get q := by
  cases r <;> cases q <;> first | exact absurd rfl h | rfl

theorem State.getX_setX (s : State) (r q : XReg) (v : Nat) :
    (s.setX r v).getX q = if q = r then v else s.getX q := by
  cases r <;> cases q <;> rfl

/-! ## `State.setX` -/

@[simp] theorem State.setX_cfg (s : State) (r : XReg) (v : Nat) : (s.setX r v).cfg = s.cfg := rfl
@[simp] theorem State.setX_x (s : State) (r : XReg) (v : Nat) : (s.setX r v).x = s.x.set r v := rfl
@[simp] theorem State.setX_dbuf (s : State) (r : XReg) (v : Nat) : (s.setX r v).dbuf = s.dbuf := rfl
@[simp] theorem State.setX_dlen (s : State) (r : XReg) (v : Nat) : (s.setX r v).dlen = s.dlen := rfl
@[simp] theorem State.setX_cmd (s : State) (r : XReg) (v : Nat) : (s.setX r v).cmd = s.cmd := rfl
@[simp] theorem State.setX_busy (s : State) (r : XReg) (v : Nat) : (s.setX r v).busy = s.busy := rfl
@[simp] theorem State.setX_done (s : State) (r : XReg) (v : Nat) : (s.setX r v).done = s.done := rfl
@[simp] theorem State.setX_err (s : State) (r : XReg) (v : Nat) : (s.setX r v).err = s.err := rfl
@[simp] theorem State.setX_eq (s : State) (r : XReg) (v : Nat) : (s.setX r v).eq = s.eq := rfl
@[simp] theorem State.setX_lt (s : State) (r : XReg) (v : Nat) : (s.setX r v).lt = s.lt := rfl
@[simp] theorem State.setX_ecode (s : State) (r : XReg) (v : Nat) : (s.setX r v).ecode = s.ecode := rfl
@[simp] theorem State.setX_ieDone (s : State) (r : XReg) (v : Nat) : (s.setX r v).ieDone = s.ieDone := rfl
@[simp] theorem State.setX_ieErr (s : State) (r : XReg) (v : Nat) : (s.setX r v).ieErr = s.ieErr := rfl
@[simp] theorem State.setX_inputs (s : State) (r : XReg) (v : Nat) : (s.setX r v).inputs = s.inputs := rfl
@[simp] theorem State.setX_trace (s : State) (r : XReg) (v : Nat) : (s.setX r v).trace = s.trace := rfl

/-! ## `State.storeDigits` -/

@[simp] theorem State.storeDigits_cfg (s : State) (ds : List Byte) : (s.storeDigits ds).cfg = s.cfg := rfl
@[simp] theorem State.storeDigits_x (s : State) (ds : List Byte) : (s.storeDigits ds).x = s.x := rfl
@[simp] theorem State.storeDigits_dbuf (s : State) (ds : List Byte) : (s.storeDigits ds).dbuf = Memory.fill ds s.cfg.dmax s.dbuf := rfl
@[simp] theorem State.storeDigits_dlen (s : State) (ds : List Byte) : (s.storeDigits ds).dlen = BitVec.ofNat 16 ds.length := rfl
@[simp] theorem State.storeDigits_cmd (s : State) (ds : List Byte) : (s.storeDigits ds).cmd = s.cmd := rfl
@[simp] theorem State.storeDigits_busy (s : State) (ds : List Byte) : (s.storeDigits ds).busy = s.busy := rfl
@[simp] theorem State.storeDigits_done (s : State) (ds : List Byte) : (s.storeDigits ds).done = s.done := rfl
@[simp] theorem State.storeDigits_err (s : State) (ds : List Byte) : (s.storeDigits ds).err = s.err := rfl
@[simp] theorem State.storeDigits_eq (s : State) (ds : List Byte) : (s.storeDigits ds).eq = s.eq := rfl
@[simp] theorem State.storeDigits_lt (s : State) (ds : List Byte) : (s.storeDigits ds).lt = s.lt := rfl
@[simp] theorem State.storeDigits_ecode (s : State) (ds : List Byte) : (s.storeDigits ds).ecode = s.ecode := rfl
@[simp] theorem State.storeDigits_ieDone (s : State) (ds : List Byte) : (s.storeDigits ds).ieDone = s.ieDone := rfl
@[simp] theorem State.storeDigits_ieErr (s : State) (ds : List Byte) : (s.storeDigits ds).ieErr = s.ieErr := rfl
@[simp] theorem State.storeDigits_inputs (s : State) (ds : List Byte) : (s.storeDigits ds).inputs = s.inputs := rfl
@[simp] theorem State.storeDigits_trace (s : State) (ds : List Byte) : (s.storeDigits ds).trace = s.trace := rfl

/-! ## `State.setFlags` -/

@[simp] theorem State.setFlags_cfg (s : State) (e l : Bool) : (s.setFlags e l).cfg = s.cfg := rfl
@[simp] theorem State.setFlags_x (s : State) (e l : Bool) : (s.setFlags e l).x = s.x := rfl
@[simp] theorem State.setFlags_dbuf (s : State) (e l : Bool) : (s.setFlags e l).dbuf = s.dbuf := rfl
@[simp] theorem State.setFlags_dlen (s : State) (e l : Bool) : (s.setFlags e l).dlen = s.dlen := rfl
@[simp] theorem State.setFlags_cmd (s : State) (e l : Bool) : (s.setFlags e l).cmd = s.cmd := rfl
@[simp] theorem State.setFlags_busy (s : State) (e l : Bool) : (s.setFlags e l).busy = s.busy := rfl
@[simp] theorem State.setFlags_done (s : State) (e l : Bool) : (s.setFlags e l).done = s.done := rfl
@[simp] theorem State.setFlags_err (s : State) (e l : Bool) : (s.setFlags e l).err = s.err := rfl
@[simp] theorem State.setFlags_eq (s : State) (e l : Bool) : (s.setFlags e l).eq = e := rfl
@[simp] theorem State.setFlags_lt (s : State) (e l : Bool) : (s.setFlags e l).lt = l := rfl
@[simp] theorem State.setFlags_ecode (s : State) (e l : Bool) : (s.setFlags e l).ecode = s.ecode := rfl
@[simp] theorem State.setFlags_ieDone (s : State) (e l : Bool) : (s.setFlags e l).ieDone = s.ieDone := rfl
@[simp] theorem State.setFlags_ieErr (s : State) (e l : Bool) : (s.setFlags e l).ieErr = s.ieErr := rfl
@[simp] theorem State.setFlags_inputs (s : State) (e l : Bool) : (s.setFlags e l).inputs = s.inputs := rfl
@[simp] theorem State.setFlags_trace (s : State) (e l : Bool) : (s.setFlags e l).trace = s.trace := rfl

/-! ## `State.issue` -/

@[simp] theorem State.issue_cfg (s : State) (w : Word) : (s.issue w).cfg = s.cfg := rfl
@[simp] theorem State.issue_x (s : State) (w : Word) : (s.issue w).x = s.x := rfl
@[simp] theorem State.issue_dbuf (s : State) (w : Word) : (s.issue w).dbuf = s.dbuf := rfl
@[simp] theorem State.issue_dlen (s : State) (w : Word) : (s.issue w).dlen = s.dlen := rfl
@[simp] theorem State.issue_cmd (s : State) (w : Word) : (s.issue w).cmd = w := rfl
@[simp] theorem State.issue_busy (s : State) (w : Word) : (s.issue w).busy = true := rfl
@[simp] theorem State.issue_done (s : State) (w : Word) : (s.issue w).done = false := rfl
@[simp] theorem State.issue_err (s : State) (w : Word) : (s.issue w).err = s.err := rfl
@[simp] theorem State.issue_eq (s : State) (w : Word) : (s.issue w).eq = s.eq := rfl
@[simp] theorem State.issue_lt (s : State) (w : Word) : (s.issue w).lt = s.lt := rfl
@[simp] theorem State.issue_ecode (s : State) (w : Word) : (s.issue w).ecode = s.ecode := rfl
@[simp] theorem State.issue_ieDone (s : State) (w : Word) : (s.issue w).ieDone = s.ieDone := rfl
@[simp] theorem State.issue_ieErr (s : State) (w : Word) : (s.issue w).ieErr = s.ieErr := rfl
@[simp] theorem State.issue_inputs (s : State) (w : Word) : (s.issue w).inputs = s.inputs := rfl
@[simp] theorem State.issue_trace (s : State) (w : Word) : (s.issue w).trace = s.trace := rfl

/-! ## `State.deliver` -/

@[simp] theorem State.deliver_cfg (s : State) : s.deliver.cfg = s.cfg := rfl
@[simp] theorem State.deliver_x (s : State) : s.deliver.x = s.x := rfl
@[simp] theorem State.deliver_dbuf (s : State) : s.deliver.dbuf = s.dbuf := rfl
@[simp] theorem State.deliver_dlen (s : State) : s.deliver.dlen = s.dlen := rfl
@[simp] theorem State.deliver_cmd (s : State) : s.deliver.cmd = s.cmd := rfl
@[simp] theorem State.deliver_busy (s : State) : s.deliver.busy = false := rfl
@[simp] theorem State.deliver_done (s : State) : s.deliver.done = true := rfl
@[simp] theorem State.deliver_err (s : State) : s.deliver.err = s.err := rfl
@[simp] theorem State.deliver_eq (s : State) : s.deliver.eq = s.eq := rfl
@[simp] theorem State.deliver_lt (s : State) : s.deliver.lt = s.lt := rfl
@[simp] theorem State.deliver_ecode (s : State) : s.deliver.ecode = s.ecode := rfl
@[simp] theorem State.deliver_ieDone (s : State) : s.deliver.ieDone = s.ieDone := rfl
@[simp] theorem State.deliver_ieErr (s : State) : s.deliver.ieErr = s.ieErr := rfl
@[simp] theorem State.deliver_inputs (s : State) : s.deliver.inputs = s.inputs := rfl
@[simp] theorem State.deliver_trace (s : State) : s.deliver.trace = s.trace := rfl

/-! ## `State.takeFault` -/

@[simp] theorem State.takeFault_cfg (s : State) (c : FaultCode) : (s.takeFault c).cfg = s.cfg := rfl
@[simp] theorem State.takeFault_x (s : State) (c : FaultCode) : (s.takeFault c).x = s.x := rfl
@[simp] theorem State.takeFault_dbuf (s : State) (c : FaultCode) : (s.takeFault c).dbuf = s.dbuf := rfl
@[simp] theorem State.takeFault_dlen (s : State) (c : FaultCode) : (s.takeFault c).dlen = s.dlen := rfl
@[simp] theorem State.takeFault_cmd (s : State) (c : FaultCode) : (s.takeFault c).cmd = s.cmd := rfl
@[simp] theorem State.takeFault_busy (s : State) (c : FaultCode) : (s.takeFault c).busy = false := rfl
@[simp] theorem State.takeFault_done (s : State) (c : FaultCode) : (s.takeFault c).done = s.done := rfl
@[simp] theorem State.takeFault_err (s : State) (c : FaultCode) : (s.takeFault c).err = true := rfl
@[simp] theorem State.takeFault_eq (s : State) (c : FaultCode) : (s.takeFault c).eq = s.eq := rfl
@[simp] theorem State.takeFault_lt (s : State) (c : FaultCode) : (s.takeFault c).lt = s.lt := rfl
@[simp] theorem State.takeFault_ecode (s : State) (c : FaultCode) : (s.takeFault c).ecode = c.code := rfl
@[simp] theorem State.takeFault_ieDone (s : State) (c : FaultCode) : (s.takeFault c).ieDone = s.ieDone := rfl
@[simp] theorem State.takeFault_ieErr (s : State) (c : FaultCode) : (s.takeFault c).ieErr = s.ieErr := rfl
@[simp] theorem State.takeFault_inputs (s : State) (c : FaultCode) : (s.takeFault c).inputs = s.inputs := rfl
@[simp] theorem State.takeFault_trace (s : State) (c : FaultCode) : (s.takeFault c).trace = s.trace := rfl

/-! ## `State.clearErr` -/

@[simp] theorem State.clearErr_cfg (s : State) : s.clearErr.cfg = s.cfg := rfl
@[simp] theorem State.clearErr_x (s : State) : s.clearErr.x = s.x := rfl
@[simp] theorem State.clearErr_dbuf (s : State) : s.clearErr.dbuf = s.dbuf := rfl
@[simp] theorem State.clearErr_dlen (s : State) : s.clearErr.dlen = s.dlen := rfl
@[simp] theorem State.clearErr_cmd (s : State) : s.clearErr.cmd = s.cmd := rfl
@[simp] theorem State.clearErr_busy (s : State) : s.clearErr.busy = s.busy := rfl
@[simp] theorem State.clearErr_done (s : State) : s.clearErr.done = s.done := rfl
@[simp] theorem State.clearErr_err (s : State) : s.clearErr.err = false := rfl
@[simp] theorem State.clearErr_eq (s : State) : s.clearErr.eq = s.eq := rfl
@[simp] theorem State.clearErr_lt (s : State) : s.clearErr.lt = s.lt := rfl
@[simp] theorem State.clearErr_ecode (s : State) : s.clearErr.ecode = 0 := rfl
@[simp] theorem State.clearErr_ieDone (s : State) : s.clearErr.ieDone = s.ieDone := rfl
@[simp] theorem State.clearErr_ieErr (s : State) : s.clearErr.ieErr = s.ieErr := rfl
@[simp] theorem State.clearErr_inputs (s : State) : s.clearErr.inputs = s.inputs := rfl
@[simp] theorem State.clearErr_trace (s : State) : s.clearErr.trace = s.trace := rfl

/-! ## `State.clearDone` -/

@[simp] theorem State.clearDone_cfg (s : State) : s.clearDone.cfg = s.cfg := rfl
@[simp] theorem State.clearDone_x (s : State) : s.clearDone.x = s.x := rfl
@[simp] theorem State.clearDone_dbuf (s : State) : s.clearDone.dbuf = s.dbuf := rfl
@[simp] theorem State.clearDone_dlen (s : State) : s.clearDone.dlen = s.dlen := rfl
@[simp] theorem State.clearDone_cmd (s : State) : s.clearDone.cmd = s.cmd := rfl
@[simp] theorem State.clearDone_busy (s : State) : s.clearDone.busy = s.busy := rfl
@[simp] theorem State.clearDone_done (s : State) : s.clearDone.done = false := rfl
@[simp] theorem State.clearDone_err (s : State) : s.clearDone.err = s.err := rfl
@[simp] theorem State.clearDone_eq (s : State) : s.clearDone.eq = s.eq := rfl
@[simp] theorem State.clearDone_lt (s : State) : s.clearDone.lt = s.lt := rfl
@[simp] theorem State.clearDone_ecode (s : State) : s.clearDone.ecode = s.ecode := rfl
@[simp] theorem State.clearDone_ieDone (s : State) : s.clearDone.ieDone = s.ieDone := rfl
@[simp] theorem State.clearDone_ieErr (s : State) : s.clearDone.ieErr = s.ieErr := rfl
@[simp] theorem State.clearDone_inputs (s : State) : s.clearDone.inputs = s.inputs := rfl
@[simp] theorem State.clearDone_trace (s : State) : s.clearDone.trace = s.trace := rfl

/-! ## `State.record` -/

@[simp] theorem State.record_cfg (s : State) (o : Obs) : (s.record o).cfg = s.cfg := rfl
@[simp] theorem State.record_x (s : State) (o : Obs) : (s.record o).x = s.x := rfl
@[simp] theorem State.record_dbuf (s : State) (o : Obs) : (s.record o).dbuf = s.dbuf := rfl
@[simp] theorem State.record_dlen (s : State) (o : Obs) : (s.record o).dlen = s.dlen := rfl
@[simp] theorem State.record_cmd (s : State) (o : Obs) : (s.record o).cmd = s.cmd := rfl
@[simp] theorem State.record_busy (s : State) (o : Obs) : (s.record o).busy = s.busy := rfl
@[simp] theorem State.record_done (s : State) (o : Obs) : (s.record o).done = s.done := rfl
@[simp] theorem State.record_err (s : State) (o : Obs) : (s.record o).err = s.err := rfl
@[simp] theorem State.record_eq (s : State) (o : Obs) : (s.record o).eq = s.eq := rfl
@[simp] theorem State.record_lt (s : State) (o : Obs) : (s.record o).lt = s.lt := rfl
@[simp] theorem State.record_ecode (s : State) (o : Obs) : (s.record o).ecode = s.ecode := rfl
@[simp] theorem State.record_ieDone (s : State) (o : Obs) : (s.record o).ieDone = s.ieDone := rfl
@[simp] theorem State.record_ieErr (s : State) (o : Obs) : (s.record o).ieErr = s.ieErr := rfl
@[simp] theorem State.record_inputs (s : State) (o : Obs) : (s.record o).inputs = s.inputs := rfl
@[simp] theorem State.record_trace (s : State) (o : Obs) : (s.record o).trace = o :: s.trace := rfl

/-! ## `State.setDigit` -/

@[simp] theorem State.setDigit_cfg (s : State) (i : Nat) (v : Byte) : (s.setDigit i v).cfg = s.cfg := by
  unfold State.setDigit
  split <;> rfl
@[simp] theorem State.setDigit_x (s : State) (i : Nat) (v : Byte) : (s.setDigit i v).x = s.x := by
  unfold State.setDigit
  split <;> rfl
@[simp] theorem State.setDigit_dlen (s : State) (i : Nat) (v : Byte) : (s.setDigit i v).dlen = s.dlen := by
  unfold State.setDigit
  split <;> rfl
@[simp] theorem State.setDigit_cmd (s : State) (i : Nat) (v : Byte) : (s.setDigit i v).cmd = s.cmd := by
  unfold State.setDigit
  split <;> rfl
@[simp] theorem State.setDigit_busy (s : State) (i : Nat) (v : Byte) : (s.setDigit i v).busy = s.busy := by
  unfold State.setDigit
  split <;> rfl
@[simp] theorem State.setDigit_done (s : State) (i : Nat) (v : Byte) : (s.setDigit i v).done = s.done := by
  unfold State.setDigit
  split <;> rfl
@[simp] theorem State.setDigit_err (s : State) (i : Nat) (v : Byte) : (s.setDigit i v).err = s.err := by
  unfold State.setDigit
  split <;> rfl
@[simp] theorem State.setDigit_eq (s : State) (i : Nat) (v : Byte) : (s.setDigit i v).eq = s.eq := by
  unfold State.setDigit
  split <;> rfl
@[simp] theorem State.setDigit_lt (s : State) (i : Nat) (v : Byte) : (s.setDigit i v).lt = s.lt := by
  unfold State.setDigit
  split <;> rfl
@[simp] theorem State.setDigit_ecode (s : State) (i : Nat) (v : Byte) : (s.setDigit i v).ecode = s.ecode := by
  unfold State.setDigit
  split <;> rfl
@[simp] theorem State.setDigit_ieDone (s : State) (i : Nat) (v : Byte) : (s.setDigit i v).ieDone = s.ieDone := by
  unfold State.setDigit
  split <;> rfl
@[simp] theorem State.setDigit_ieErr (s : State) (i : Nat) (v : Byte) : (s.setDigit i v).ieErr = s.ieErr := by
  unfold State.setDigit
  split <;> rfl
@[simp] theorem State.setDigit_inputs (s : State) (i : Nat) (v : Byte) : (s.setDigit i v).inputs = s.inputs := by
  unfold State.setDigit
  split <;> rfl
@[simp] theorem State.setDigit_trace (s : State) (i : Nat) (v : Byte) : (s.setDigit i v).trace = s.trace := by
  unfold State.setDigit
  split <;> rfl

/-! ## Reads the updates do not reach -/

@[simp] theorem State.setX_digit (s : State) (r : XReg) (v : Nat) (i : Nat) : (s.setX r v).digit i = s.digit i := rfl
@[simp] theorem State.storeDigits_getX (s : State) (ds : List Byte) (q : XReg) : (s.storeDigits ds).getX q = s.getX q := rfl
@[simp] theorem State.setFlags_digit (s : State) (e l : Bool) (i : Nat) : (s.setFlags e l).digit i = s.digit i := rfl
@[simp] theorem State.setFlags_getX (s : State) (e l : Bool) (q : XReg) : (s.setFlags e l).getX q = s.getX q := rfl
@[simp] theorem State.issue_digit (s : State) (w : Word) (i : Nat) : (s.issue w).digit i = s.digit i := rfl
@[simp] theorem State.issue_getX (s : State) (w : Word) (q : XReg) : (s.issue w).getX q = s.getX q := rfl
@[simp] theorem State.deliver_digit (s : State) (i : Nat) : s.deliver.digit i = s.digit i := rfl
@[simp] theorem State.deliver_getX (s : State) (q : XReg) : s.deliver.getX q = s.getX q := rfl
@[simp] theorem State.takeFault_digit (s : State) (c : FaultCode) (i : Nat) : (s.takeFault c).digit i = s.digit i := rfl
@[simp] theorem State.takeFault_getX (s : State) (c : FaultCode) (q : XReg) : (s.takeFault c).getX q = s.getX q := rfl
@[simp] theorem State.clearErr_digit (s : State) (i : Nat) : s.clearErr.digit i = s.digit i := rfl
@[simp] theorem State.clearErr_getX (s : State) (q : XReg) : s.clearErr.getX q = s.getX q := rfl
@[simp] theorem State.clearDone_digit (s : State) (i : Nat) : s.clearDone.digit i = s.digit i := rfl
@[simp] theorem State.clearDone_getX (s : State) (q : XReg) : s.clearDone.getX q = s.getX q := rfl
@[simp] theorem State.record_digit (s : State) (o : Obs) (i : Nat) : (s.record o).digit i = s.digit i := rfl
@[simp] theorem State.record_getX (s : State) (o : Obs) (q : XReg) : (s.record o).getX q = s.getX q := rfl
@[simp] theorem State.setDigit_getX (s : State) (i : Nat) (v : Byte) (q : XReg) :
    (s.setDigit i v).getX q = s.getX q := by
  unfold State.getX
  rw [State.setDigit_x]

end Sys2Proof.Machine
end

