-- ==== Sys2Proof/Laws/Memory.lean ====
section
/-! SUPPORT. The byte store: read after write, and that every operation keeps the canonical form and
the bound on its indexes. -/

namespace Sys2Proof.Machine

/-! ## Reading -/

theorem Memory.read_erase (m : Memory) (a b : Nat) :
    Memory.read (Memory.erase m a) b = if b = a then Memory.unlisted else Memory.read m b := by
  induction m with
  | nil => simp [Memory.erase, Memory.read]
  | cons c m ih =>
    obtain ⟨k, w⟩ := c
    by_cases hk : k = a
    · subst hk
      have he : Memory.erase ((k, w) :: m) k = Memory.erase m k := by simp [Memory.erase]
      rw [he, ih]
      by_cases hb : b = k
      · simp [hb]
      · simp [hb, Memory.read, Ne.symm hb]
    · have he : Memory.erase ((k, w) :: m) a = (k, w) :: Memory.erase m a := by
        simp [Memory.erase, hk]
      rw [he]
      by_cases hb : k = b
      · subst hb
        simp [Memory.read, hk]
      · simp [Memory.read, hb, ih]

theorem Memory.erase_not_mem (m : Memory) (a : Nat) : ∀ c ∈ Memory.erase m a, c.1 ≠ a := by
  intro c hc
  simpa [Memory.erase] using (List.mem_filter.mp hc).2

theorem Memory.read_insert (m : Memory) (a b : Nat) (v : Byte) (h : ∀ c ∈ m, c.1 ≠ a) :
    Memory.read (Memory.insert a v m) b = if b = a then v else Memory.read m b := by
  induction m with
  | nil => simp [Memory.insert, Memory.read, eq_comm]
  | cons c m ih =>
    obtain ⟨k, w⟩ := c
    have hka : k ≠ a := h (k, w) (by simp)
    have ih' := ih (fun c hc => h c (by simp [hc]))
    by_cases hlt : a < k
    · simp [Memory.insert, hlt, Memory.read, eq_comm]
    · by_cases hb : k = b
      · subst hb
        simp [Memory.insert, hlt, Memory.read, hka]
      · simp [Memory.insert, hlt, Memory.read, hb, ih']

/-- Read after write, in every store. -/
theorem Memory.read_write (m : Memory) (a b : Nat) (v : Byte) :
    Memory.read (Memory.write m a v) b = if b = a then v else Memory.read m b := by
  unfold Memory.write
  split
  · next hv => rw [Memory.read_erase, hv]
  · rw [Memory.read_insert _ _ _ _ (Memory.erase_not_mem m a), Memory.read_erase]
    split <;> rfl

/-- What filling the first `n` entries from a list leaves. -/
theorem Memory.read_fill (ds : List Byte) (n : Nat) (m : Memory) (b : Nat) :
    Memory.read (Memory.fill ds n m) b = if b < n then ds.getD b 0#8 else Memory.read m b := by
  induction n with
  | zero => simp [Memory.fill]
  | succ n ih =>
    rw [Memory.fill, Memory.read_write, ih]
    by_cases hb : b = n
    · simp [hb]
    · have : b < n ↔ b < n + 1 := by omega
      simp [hb, this]

/-! ## The canonical form -/

theorem Memory.wfFrom_mono (m : Memory) {lo hi : Nat} (h : lo ≤ hi) (hm : Memory.wfFrom hi m = true) :
    Memory.wfFrom lo m = true := by
  cases m with
  | nil => rfl
  | cons c m =>
    simp only [Memory.wfFrom, Bool.and_eq_true, decide_eq_true_eq] at hm ⊢
    exact ⟨⟨h.trans hm.1.1, hm.1.2⟩, hm.2⟩

theorem Memory.wfFrom_erase (m : Memory) (lo a : Nat) (hm : Memory.wfFrom lo m = true) :
    Memory.wfFrom lo (Memory.erase m a) = true := by
  induction m generalizing lo with
  | nil => rfl
  | cons c m ih =>
    obtain ⟨k, w⟩ := c
    simp only [Memory.wfFrom, Bool.and_eq_true, decide_eq_true_eq] at hm
    by_cases hk : k = a
    · have he : Memory.erase ((k, w) :: m) a = Memory.erase m a := by simp [Memory.erase, hk]
      rw [he]
      exact Memory.wfFrom_mono _ (hm.1.1.trans (Nat.le_succ k)) (ih _ hm.2)
    · have he : Memory.erase ((k, w) :: m) a = (k, w) :: Memory.erase m a := by
        simp [Memory.erase, hk]
      rw [he]
      simp only [Memory.wfFrom, Bool.and_eq_true, decide_eq_true_eq]
      exact ⟨hm.1, ih _ hm.2⟩

theorem Memory.wfFrom_insert (m : Memory) (lo a : Nat) (v : Byte) (hv : v ≠ Memory.unlisted)
    (ha : lo ≤ a) (h : ∀ c ∈ m, c.1 ≠ a) (hm : Memory.wfFrom lo m = true) :
    Memory.wfFrom lo (Memory.insert a v m) = true := by
  induction m generalizing lo with
  | nil => simp [Memory.insert, Memory.wfFrom, ha, hv]
  | cons c m ih =>
    obtain ⟨k, w⟩ := c
    have hka : k ≠ a := h (k, w) (by simp)
    simp only [Memory.wfFrom, Bool.and_eq_true, decide_eq_true_eq] at hm
    by_cases hlt : a < k
    · simp only [Memory.insert, hlt, if_true, Memory.wfFrom, Bool.and_eq_true, decide_eq_true_eq]
      exact ⟨⟨ha, by simpa using hv⟩, ⟨hlt, hm.1.2⟩, hm.2⟩
    · simp only [Memory.insert, hlt, if_false, Memory.wfFrom, Bool.and_eq_true, decide_eq_true_eq]
      exact ⟨hm.1, ih _ (by omega) (fun c hc => h c (by simp [hc])) hm.2⟩

/-- A write keeps the canonical form. -/
theorem Memory.wf_write (m : Memory) (a : Nat) (v : Byte) (hm : Memory.wf m = true) :
    Memory.wf (Memory.write m a v) = true := by
  unfold Memory.write
  split
  · exact Memory.wfFrom_erase m 0 a hm
  · next hv =>
    exact Memory.wfFrom_insert _ 0 a v hv (Nat.zero_le a) (Memory.erase_not_mem m a)
      (Memory.wfFrom_erase m 0 a hm)

/-- Filling keeps the canonical form. -/
theorem Memory.wf_fill (ds : List Byte) (n : Nat) (m : Memory) (hm : Memory.wf m = true) :
    Memory.wf (Memory.fill ds n m) = true := by
  induction n with
  | zero => exact hm
  | succ n ih => exact Memory.wf_write _ n _ ih

/-! ## The bound on the indexes -/

theorem Memory.mem_insert (m : Memory) (a : Nat) (v : Byte) {c : Host.Cell}
    (h : c ∈ Memory.insert a v m) : c = (a, v) ∨ c ∈ m := by
  induction m with
  | nil => simpa [Memory.insert] using h
  | cons d m ih =>
    obtain ⟨k, w⟩ := d
    unfold Memory.insert at h
    split at h
    · simpa using h
    · rcases List.mem_cons.mp h with rfl | h
      · simp
      · rcases ih h with h | h
        · exact .inl h
        · simp [h]

/-- A write below the bound keeps every index below it. -/
theorem Memory.below_write (m : Memory) (n a : Nat) (v : Byte) (ha : a < n)
    (hm : Memory.below n m = true) : Memory.below n (Memory.write m a v) = true := by
  have he : ∀ c ∈ Memory.erase m a, c.1 < n := by
    intro c hc
    have := List.all_eq_true.mp hm c (List.mem_filter.mp hc).1
    simpa using this
  unfold Memory.write
  refine List.all_eq_true.mpr ?_
  intro c hc
  split at hc
  · simpa using he c hc
  · rcases Memory.mem_insert _ _ _ hc with rfl | hc
    · simpa using ha
    · simpa using he c hc

/-- Filling entries below the bound keeps every index below it. -/
theorem Memory.below_fill (ds : List Byte) (n k : Nat) (m : Memory) (hk : k ≤ n)
    (hm : Memory.below n m = true) : Memory.below n (Memory.fill ds k m) = true := by
  induction k with
  | zero => exact hm
  | succ k ih => exact Memory.below_write _ n k _ (by omega) (ih (by omega))

/-! ## The digit buffer -/

/-- Read after write of one entry of `DBUF`, existing or not. -/
theorem State.digit_setDigit (s : State) (i j : Nat) (v : Byte) :
    (s.setDigit i v).digit j = if j = i ∧ i < s.cfg.dmax then v else s.digit j := by
  unfold State.digit State.setDigit
  by_cases hi : i < s.cfg.dmax
  · by_cases hj : j = i
    · subst hj
      simp [hi, Memory.read_write]
    · simp [hi, hj, Memory.read_write]
  · simp [hi]

/-- What storing a digit sequence leaves in `DBUF`: the digits, then zeros. -/
theorem State.digit_storeDigits (s : State) (ds : List Byte) (j : Nat) :
    (s.storeDigits ds).digit j = if j < s.cfg.dmax then ds.getD j 0#8 else 0#8 := by
  unfold State.digit State.storeDigits
  by_cases hj : j < s.cfg.dmax
  · simp [hj, Memory.read_fill]
  · simp [hj]

theorem State.dbufOk_setDigit (s : State) (i : Nat) (v : Byte) (h : s.dbufOk) :
    (s.setDigit i v).dbufOk := by
  unfold State.setDigit
  split
  · next hi => exact ⟨Memory.wf_write _ _ _ h.1, Memory.below_write _ _ _ _ hi h.2⟩
  · exact h

theorem State.dbufOk_storeDigits (s : State) (ds : List Byte) (h : s.dbufOk) :
    (s.storeDigits ds).dbufOk :=
  ⟨Memory.wf_fill _ _ _ h.1, Memory.below_fill _ _ _ _ (le_refl _) h.2⟩

end Sys2Proof.Machine
end

