-- ==== Sys2Proof/Laws/Bus.lean ====
section
/-! SUPPORT. Everything a transaction can do, said once: it is refused, or one target is read or
written; and what a write of each target leaves alone. -/

namespace Sys2Proof.Machine

theorem busRead_cases (s : State) (off : Offset) (size : Nat) :
    busRead s off size = (0#32, true) ∨
      ∃ tg, targetAt s.cfg off size = some tg ∧ readAdmitted s.phase tg = true ∧
        busRead s off size = (readTarget s tg, false) := by
  unfold busRead
  split
  · exact .inl rfl
  · rename_i tg ht
    split
    · exact .inr ⟨tg, ht, ‹_›, rfl⟩
    · exact .inl rfl

theorem busWrite_cases (s : State) (off : Offset) (size : Nat) (v : Word) :
    busWrite s off size v = (s, true) ∨
      ∃ tg, targetAt s.cfg off size = some tg ∧ writeAdmitted s.phase tg = true ∧
        busWrite s off size v = (writeTarget s v tg, false) := by
  unfold busWrite
  split
  · exact .inl rfl
  · rename_i tg ht
    split
    · exact .inr ⟨tg, ht, ‹_›, rfl⟩
    · exact .inl rfl

/-- An offset with a target stands in one of the three windows. -/
theorem mapAt_cases {c : Config} {a : Nat} {tg : Target} (h : mapAt c a = some tg) :
    controlAt a = some tg ∨ dbufAt c a = some tg ∨ xAt c a = some tg := by
  unfold mapAt at h
  rcases Option.or_eq_some_iff.1 h with h | ⟨-, h⟩
  · exact .inl h
  · rcases Option.or_eq_some_iff.1 h with h | ⟨-, h⟩
    · exact .inr (.inl h)
    · exact .inr (.inr h)

/-- A control or status register stands at its own offset and at no other. -/
theorem controlAt_offset {a : Nat} {tg : Target} (h : controlAt a = some tg) :
    (a, tg) ∈ [(0x0000, Target.id), (0x0004, .cfg), (0x0008, .cmd), (0x000C, .status),
      (0x0010, .ctrl), (0x0014, .dlen)] := by
  unfold controlAt at h
  split at h <;> cases h <;> decide

/-- There is no control or status register above `DLEN`. -/
theorem controlAt_high {a : Nat} (h : 0x0014 < a) : controlAt a = none := by
  cases hc : controlAt a with
  | none => rfl
  | some tg =>
    have := controlAt_offset hc
    simp only [List.mem_cons, Prod.mk.injEq, List.not_mem_nil, or_false] at this
    omega

/-- What stands in the DBUF window. -/
theorem dbufAt_eq_some {c : Config} {a : Nat} {tg : Target} (h : dbufAt c a = some tg) :
    0x0400 ≤ a ∧ (a - 0x0400) / 4 < c.ndw ∧ tg = .dbufWord ((a - 0x0400) / 4) := by
  unfold dbufAt at h
  split at h
  · next hr => exact ⟨hr.1, by omega, (Option.some.inj h).symm⟩
  · cases h

/-- What stands in the X window. -/
theorem xAt_eq_some {c : Config} {a : Nat} {tg : Target} (h : xAt c a = some tg) :
    0x1000 ≤ a ∧ a < 0x1800 ∧ a % 0x200 / 4 < c.nw ∧
      tg = .xWord (XReg.ofNum ((a - 0x1000) / 0x200)) (a % 0x200 / 4) := by
  unfold xAt at h
  split at h
  · next hr => exact ⟨hr.1, hr.2.1, hr.2.2, (Option.some.inj h).symm⟩
  · cases h

/-- The offset of DBUF word `k` is that of no other target. -/
theorem mapAt_dbufWord (c : Config) (k : Nat) (hk : k < c.ndw) :
    mapAt c (0x0400 + 4 * k) = some (.dbufWord k) := by
  have hd : dbufAt c (0x0400 + 4 * k) = some (.dbufWord k) := by
    have hq : (0x0400 + 4 * k - 0x0400) / 4 = k := by omega
    rw [dbufAt, hq]
    exact if_pos ⟨by omega, by omega⟩
  rw [mapAt, controlAt_high (by omega), hd]
  rfl

/-- The offset of word `j` of a register is that of no other target. -/
theorem mapAt_xWord (c : Config) (r : XReg) (j : Nat) (hj : j < c.nw) (hn : c.nw ≤ 128)
    (hd : c.ndw ≤ 147) : mapAt c (0x1000 + 0x200 * r.num + 4 * j) = some (.xWord r j) := by
  have hr := XReg.num_lt r
  generalize ha : 0x1000 + 0x200 * r.num + 4 * j = a
  have hx : xAt c a = some (.xWord r j) := by
    have hq : (a - 0x1000) / 0x200 = r.num := by omega
    have hm : a % 0x200 / 4 = j := by omega
    rw [xAt, hq, hm, XReg.ofNum_num]
    exact if_pos ⟨by omega, by omega, hj⟩
  have hb : dbufAt c a = none := if_neg (by omega)
  rw [mapAt, controlAt_high (by omega), hb, hx]
  rfl

/-- The bounds of an admitted width (00_scope.md R5, R6). -/
theorem legal_bounds {c : Config} (h : c.legal) :
    c.nw ≤ 128 ∧ c.dmax ≤ 586 ∧ c.ndw ≤ 147 ∧ c.dmax < 65536 := by
  obtain ⟨h1, h2, h3⟩ := h
  unfold Config.ndw Config.nw Config.dmax
  omega

/-- A write of a DBUF word changes the digit buffer and nothing else, and keeps it well formed. -/
theorem writeTarget_dbufWord (s : State) (v : Word) (k : Nat) :
    ∃ m, writeTarget s v (.dbufWord k) = { s with dbuf := m } ∧
      (s.dbufOk → ({ s with dbuf := m } : State).dbufOk) := by
  refine ⟨(writeTarget s v (.dbufWord k)).dbuf, ?_, fun h => ?_⟩
  · simp only [writeTarget, State.setDigit]
    split <;> split <;> split <;> split <;> rfl
  · have := State.dbufOk_setDigit _ (4 * k + 3) (v.extractLsb' 24 8) <|
      State.dbufOk_setDigit _ (4 * k + 2) (v.extractLsb' 16 8) <|
      State.dbufOk_setDigit _ (4 * k + 1) (v.extractLsb' 8 8) <|
      State.dbufOk_setDigit _ (4 * k) (v.extractLsb' 0 8) h
    have hc : (writeTarget s v (.dbufWord k)).cfg = s.cfg := by
      simp only [writeTarget, State.setDigit]
      split <;> split <;> split <;> split <;> rfl
    rw [State.dbufOk] at this ⊢
    exact ⟨this.1, hc ▸ this.2⟩

/-- The write-one-to-clear of `STATUS`, field by field. -/
theorem writeStatus_eq (s : State) (v : Word) :
    writeStatus s v = { s with
      done := s.done && !v.getLsbD 1
      err := s.err && !v.getLsbD 2
      ecode := if v.getLsbD 2 then 0 else s.ecode } := by
  unfold writeStatus State.clearDone State.clearErr
  cases h1 : v.getLsbD 1 <;> cases h2 : v.getLsbD 2 <;> simp

/-- An admitted write leaves everything alone but the field its target names. -/
theorem writeTarget_frame (s : State) (v : Word) (tg : Target) :
    (writeTarget s v tg).cfg = s.cfg ∧ (writeTarget s v tg).eq = s.eq ∧
    (writeTarget s v tg).lt = s.lt ∧ (writeTarget s v tg).inputs = s.inputs ∧
    (writeTarget s v tg).trace = s.trace := by
  cases tg
  case status => rw [show writeTarget s v .status = _ from writeStatus_eq s v]; exact ⟨rfl, rfl, rfl, rfl, rfl⟩
  case dbufWord k =>
    obtain ⟨m, h, -⟩ := writeTarget_dbufWord s v k
    rw [h]; exact ⟨rfl, rfl, rfl, rfl, rfl⟩
  all_goals exact ⟨rfl, rfl, rfl, rfl, rfl⟩

/-- Only a write of `CMD` sets `BUSY`, and it is admitted in phase `IDLE` alone; every other write
leaves it. -/
theorem writeTarget_busy (s : State) (v : Word) (tg : Target) (h : tg ≠ .cmd) :
    (writeTarget s v tg).busy = s.busy ∧ (writeTarget s v tg).cmd = s.cmd := by
  cases tg
  case cmd => exact absurd rfl h
  case status => rw [show writeTarget s v .status = _ from writeStatus_eq s v]; exact ⟨rfl, rfl⟩
  case dbufWord k =>
    obtain ⟨m, h, -⟩ := writeTarget_dbufWord s v k
    rw [h]; exact ⟨rfl, rfl⟩
  all_goals exact ⟨rfl, rfl⟩

/-- Only a write of `CMD` or `STATUS` touches `DONE`, `ERR` or `ECODE`. -/
theorem writeTarget_status (s : State) (v : Word) (tg : Target) (h : tg ≠ .cmd) (h' : tg ≠ .status) :
    (writeTarget s v tg).done = s.done ∧ (writeTarget s v tg).err = s.err ∧
      (writeTarget s v tg).ecode = s.ecode := by
  cases tg
  case cmd => exact absurd rfl h
  case status => exact absurd rfl h'
  case dbufWord k =>
    obtain ⟨m, h, -⟩ := writeTarget_dbufWord s v k
    rw [h]; exact ⟨rfl, rfl, rfl⟩
  all_goals exact ⟨rfl, rfl, rfl⟩

end Sys2Proof.Machine
end

