-- ==== Sys2Proof/Laws/Exec.lean ====
section
/-! SUPPORT. Everything a command can do, said once: it takes a fault, or it ends with one kind of
write. -/

namespace Sys2Proof.Machine

@[simp] theorem finish_eq (s : State) : finish s = .next s.deliver := rfl
@[simp] theorem raise_eq (c : FaultCode) (s : State) : raise c s = .next (s.takeFault c) := rfl

/-- A fault code as a number is one of the nine. -/
theorem FaultCode.code_range (c : FaultCode) : 1 ≤ c.code.toNat ∧ c.code.toNat ≤ 9 := by
  cases c <;> decide

theorem FaultCode.code_ne_zero (c : FaultCode) : c.code ≠ 0 := by cases c <;> decide

/-- The four ways a command ends: a fault, a result in its destination register, digits, or flags. -/
inductive Ends (i : Instr) (s : State) : Result → Prop where
  | fault (c : FaultCode) : Ends i s (.next (s.takeFault c))
  | register (rd : XReg) (v : Nat)
      (h : match i with
        | .dec r | .blklen r _ | .modexp r _ _ _ | .modred r _ _ | .mul r _ _ | .mov r _ | .ldi r _ =>
          r = rd
        | .enc _ | .encw _ _ | .cmp _ _ => False) :
      Ends i s (.next (s.setX rd v).deliver)
  | digits (ds : List Byte) (h : (∃ a, i = .enc a) ∨ ∃ a v, i = .encw a v) :
      Ends i s (.next (s.storeDigits ds).deliver)
  | flags (a b : XReg) (h : i = .cmp a b) :
      Ends i s (.next (s.setFlags (eqFlag (s.getX a) (s.getX b)) (ltFlag (s.getX a) (s.getX b))).deliver)

theorem exec_ends (i : Instr) (s : State) : Ends i s (exec i s) := by
  cases i <;> simp only [exec]
  case dec rd =>
    unfold execDec
    repeat' split
    all_goals first | exact .fault _ | exact .register rd _ rfl
  case enc a =>
    unfold execEnc
    split
    · exact .fault _
    · exact .digits _ (.inl ⟨a, rfl⟩)
  case encw a v =>
    unfold execEncw
    repeat' split
    all_goals first | exact .fault _ | exact .digits _ (.inr ⟨a, v, rfl⟩)
  case blklen rd a =>
    unfold execBlklen
    split
    · exact .fault _
    · exact .register rd _ rfl
  case modexp rd a b c =>
    unfold execModexp
    repeat' split
    all_goals first | exact .fault _ | exact .register rd _ rfl
  case modred rd a c =>
    unfold execModred
    split
    · exact .fault _
    · exact .register rd _ rfl
  case mul rd a b =>
    unfold execMul
    split
    · exact .fault _
    · exact .register rd _ rfl
  case mov rd a => exact .register rd _ rfl
  case ldi rd v => exact .register rd _ rfl
  case cmp a b => exact .flags a b rfl

/-- A successful end leaves `ERR` and `ECODE` as they were; a fault sets both. -/
theorem exec_done_or_fault {i : Instr} {s t : State} (h : exec i s = .next t) :
    (t.busy = false ∧ t.done = true ∧ t.err = s.err ∧ t.ecode = s.ecode) ∨
      ∃ c, t = s.takeFault c := by
  have e := exec_ends i s
  rw [h] at e
  cases e with
  | fault c => exact .inr ⟨c, rfl⟩
  | register => exact .inl ⟨rfl, rfl, rfl, rfl⟩
  | digits => exact .inl ⟨rfl, rfl, rfl, rfl⟩
  | flags => exact .inl ⟨rfl, rfl, rfl, rfl⟩

end Sys2Proof.Machine
end

