-- ==== Sys2Proof/Laws/Engine.lean ====
section
/-! SUPPORT. Everything a step can do, said once: a read, a write, a completion, an idle turn of the
engine, or a reset. -/

namespace Sys2Proof.Machine

/-- A completion's evaluation is a command's `exec`, or the fault of a word that encodes none. -/
theorem evaluate_cases (s : State) :
    (∃ i, decode s.cmd = .ok i ∧ evaluate s = exec i s) ∨
      ∃ e, decode s.cmd = .error e ∧ evaluate s = .next (s.takeFault .illegalCmd) := by
  unfold evaluate
  cases h : decode s.cmd with
  | ok i => exact .inl ⟨i, rfl, rfl⟩
  | error e => exact .inr ⟨e, rfl, rfl⟩

/-- The ways a step can go, by the event it takes. -/
inductive Goes (s : State) : Result → Prop where
  | read (off : Offset) (size : Nat) (rest : List Event) (h : s.inputs = .read off size :: rest) :
      Goes s (.next { s with
        inputs := rest
        trace := .response (busRead s off size).1 (busRead s off size).2 :: s.trace })
  | refused (off : Offset) (size : Nat) (v : Word) (rest : List Event)
      (h : s.inputs = .write off size v :: rest) :
      Goes s (.next { s with inputs := rest, trace := .response 0 true :: s.trace })
  | write (off : Offset) (size : Nat) (v : Word) (rest : List Event) (tg : Target)
      (h : s.inputs = .write off size v :: rest) (ht : targetAt s.cfg off size = some tg)
      (ha : writeAdmitted s.phase tg = true) :
      Goes s (.next ((writeTarget { s with inputs := rest } v tg).record (.response 0 false)))
  | reset (rest : List Event) (h : s.inputs = .reset :: rest) :
      Goes s (.next (resetEvent { s with inputs := rest }))
  | idle (rest : List Event) (h : s.inputs = rest ∧ rest = [] ∨ s.inputs = .engine :: rest)
      (hb : s.busy = false) : Goes s (.next { s with inputs := rest })
  | illegal (rest : List Event) (h : s.inputs = rest ∧ rest = [] ∨ s.inputs = .engine :: rest)
      (hb : s.busy = true) (e : Illegal) (hd : decode s.cmd = .error e) :
      Goes s (.next ((({ s with inputs := rest } : State).takeFault .illegalCmd).record (.faulted 1)))
  | completion (rest : List Event) (h : s.inputs = rest ∧ rest = [] ∨ s.inputs = .engine :: rest)
      (hb : s.busy = true) (i : Instr) (hd : decode s.cmd = .ok i) (t : State)
      (ht : exec i { s with inputs := rest } = .next t) :
      Goes s (.next (t.record (completionObs t)))

theorem engineTurn_goes (s : State) (rest : List Event)
    (h : s.inputs = rest ∧ rest = [] ∨ s.inputs = .engine :: rest) :
    Goes s (engineTurn { s with inputs := rest }) := by
  unfold engineTurn
  cases hb : s.busy with
  | false => simp only [Bool.false_eq_true, if_false]; exact hb ▸ .idle rest h hb
  | true =>
    simp only [if_true]
    rcases evaluate_cases { s with inputs := rest } with ⟨i, hd, he⟩ | ⟨e, hd, he⟩
    · obtain ⟨t, ht⟩ : ∃ t, exec i { s with inputs := rest } = .next t := by
        have e := exec_ends i { s with inputs := rest }
        generalize exec i { s with inputs := rest } = r at e
        cases e <;> exact ⟨_, rfl⟩
      have := Goes.completion rest h hb i hd t ht
      simp only [hb] at ht he
      rw [he, ht]; exact this
    · have := Goes.illegal rest h hb e hd
      simp only [hb] at he
      rw [he]; exact this

theorem step_goes (s : State) : Goes s (step s) := by
  unfold step nextEvent
  cases hi : s.inputs with
  | nil =>
    have := engineTurn_goes s [] (.inl ⟨hi, rfl⟩)
    rwa [show ({ s with inputs := [] } : State) = s from by rw [← hi]] at this
  | cons e rest =>
    cases e with
    | read off size => exact .read off size rest hi
    | write off size v =>
      rcases busWrite_cases { s with inputs := rest } off size v with h | ⟨tg, ht, ha, h⟩
      · simp only [event, h]; exact .refused off size v rest hi
      · simp only [event, h]; exact .write off size v rest tg hi ht ha
    | engine => exact engineTurn_goes s rest (.inr hi)
    | reset => exact .reset rest hi

end Sys2Proof.Machine
end

