-- ==== Sys2Proof/Laws/PerInstr.lean ====
section
/-! SUPPORT. The family `EncodesWellFormed`: the word of every command has fields that pass every check
of 30_encoding.md R93 and R94. -/

namespace Sys2Proof.Laws.EncodesWellFormed

/-- The word of `i` has well-formed fields. -/
def Statement (i : Instr) : Prop := (fieldsOf (encode i)).wellFormed = true

theorem dec (rd : XReg) : Statement (.dec rd) := by
  cases rd <;> rfl

theorem enc (rs1 : XReg) : Statement (.enc rs1) := by
  cases rs1 <;> rfl

theorem encw (rs1 : XReg) (imm16 : BitVec 16) : Statement (.encw rs1 imm16) := by
  unfold Statement encode
  rw [fieldsOf_wordI]
  cases rs1 <;> rfl

theorem blklen (rd rs1 : XReg) : Statement (.blklen rd rs1) := by
  cases rd <;> cases rs1 <;> rfl

theorem modexp (rd rs1 rs2 rs3 : XReg) : Statement (.modexp rd rs1 rs2 rs3) := by
  unfold Statement encode
  rw [fieldsOf_wordR]
  cases rd <;> cases rs1 <;> cases rs2 <;> cases rs3 <;> rfl

theorem modred (rd rs1 rs3 : XReg) : Statement (.modred rd rs1 rs3) := by
  cases rd <;> cases rs1 <;> cases rs3 <;> rfl

theorem mul (rd rs1 rs2 : XReg) : Statement (.mul rd rs1 rs2) := by
  cases rd <;> cases rs1 <;> cases rs2 <;> rfl

theorem mov (rd rs1 : XReg) : Statement (.mov rd rs1) := by
  cases rd <;> cases rs1 <;> rfl

theorem ldi (rd : XReg) (imm16 : BitVec 16) : Statement (.ldi rd imm16) := by
  unfold Statement encode
  rw [fieldsOf_wordI]
  cases rd <;> rfl

theorem cmp (rs1 rs2 : XReg) : Statement (.cmp rs1 rs2) := by
  cases rs1 <;> cases rs2 <;> rfl

end Sys2Proof.Laws.EncodesWellFormed
end

