-- ==== Sys2Proof/Tests/Slice0.lean ====
section
/-! SUPPORT. Tests: ill-formed words, decoded words, one command or one access each on a small state,
and a witness for the hypotheses of every statement that has some. Expected values are those of
95_test_vectors.md, named in each comment, or hand calculation from the rule named there. -/

namespace Sys2Proof.Tests

open Sys2Proof Sys2Proof.Machine

/-! ## Helpers -/

/-- The reset state of width 32 with the four registers written. -/
def at32 (a b c d : Nat) : State := { State.resetWith ⟨32⟩ with x := ⟨a, b, c, d⟩ }

/-- The reset state of width 64 with the four registers written. -/
def at64 (a b c d : Nat) : State := { State.resetWith ⟨64⟩ with x := ⟨a, b, c, d⟩ }

/-- A state with its digit buffer and `DLEN` written. -/
def holding (ds : List Byte) (n : BitVec 16) (s : State) : State :=
  { s with dbuf := Memory.fill ds s.cfg.dmax [], dlen := n }

/-- A state in phase `BUSY` with a command word and events to come. -/
def running (w : Word) (evs : List Event) (s : State) : State :=
  { s with cmd := w, busy := true, inputs := evs }

/-- A state in phase `HALT` with fault code 6. -/
def halted (s : State) : State := { s with err := true, ecode := 6 }

def after : Result → Option State
  | .next t => some t
  | .fault _ => none
  | .refused _ => none

/-- The X file and the `STATUS` word after a command. -/
def regs (r : Result) : Option (XFile × Word) := (after r).map (fun t => (t.x, statusWord t))

/-- The first `n` entries, `DLEN` and the `STATUS` word after a command. -/
def digs (n : Nat) (r : Result) : Option (List Byte × BitVec 16 × Word) :=
  (after r).map (fun t => ((List.range n).map t.digit, t.dlen, statusWord t))

def refusedBy (w : Word) : Option Illegal :=
  match decode w with
  | .ok _ => none
  | .error e => some e

/-! ## Well-formedness: an ill-formed term for each check -/

def plainFields (op : BitVec 8) : Fields := ⟨op, 0, 0, 0, 0, 0, 0⟩

theorem test_wf_plain_dec : (plainFields 0x10).wellFormed = true := by decide
theorem test_wf_opcode : (plainFields 0x14).problem = some .opcode := by decide
theorem test_wf_rd_register :
    ({ plainFields 0x10 with rd := 4 } : Fields).problem = some (.register .rd) := by decide
theorem test_wf_rs1_register :
    ({ plainFields 0x11 with rs1 := 4 } : Fields).problem = some (.register .rs1) := by decide
theorem test_wf_rs2_register :
    ({ plainFields 0x20 with rs2 := 4 } : Fields).problem = some (.register .rs2) := by decide
theorem test_wf_rs3_register :
    ({ plainFields 0x20 with rs3 := 15 } : Fields).problem = some (.register .rs3) := by decide
theorem test_wf_rd_unused :
    ({ plainFields 0x11 with rd := 1 } : Fields).problem = some (.unused .rd) := by decide
theorem test_wf_rs1_unused :
    ({ plainFields 0x10 with rs1 := 1 } : Fields).problem = some (.unused .rs1) := by decide
theorem test_wf_rs2_unused :
    ({ plainFields 0x13 with rs2 := 1 } : Fields).problem = some (.unused .rs2) := by decide
theorem test_wf_rs3_unused :
    ({ plainFields 0x22 with rs3 := 1 } : Fields).problem = some (.unused .rs3) := by decide
theorem test_wf_zero_unused :
    ({ plainFields 0x30 with zero := 0x80 } : Fields).problem = some (.unused .zero) := by decide

/-! ## Decoding: words written out bit by bit from 30_encoding.md R91, R92, R96 (V-LEG, V-ILL) -/

-- V-LEG-2: zero, rs3, rs2, rs1, rd = 3, opcode 0x10
theorem test_decode_dec : decode 0b00000000_0000_0000_0000_0011_00010000#32 = .ok (.dec .x3) := rfl
-- V-LEG-3
theorem test_decode_enc : decode 0b00000000_0000_0000_0001_0000_00010001#32 = .ok (.enc .x1) := rfl
-- V-LEG-5: imm16, rs1 = 3, rd, opcode 0x12
theorem test_decode_encw :
    decode 0b1111111111111111_0011_0000_00010010#32 = .ok (.encw .x3 65535#16) := rfl
-- V-LEG-6
theorem test_decode_blklen :
    decode 0b00000000_0000_0000_0011_0001_00010011#32 = .ok (.blklen .x1 .x3) := rfl
-- V-LEG-7: zero, rs3 = 3, rs2 = 1, rs1 = 0, rd = 2, opcode 0x20
theorem test_decode_modexp :
    decode 0b00000000_0011_0001_0000_0010_00100000#32 = .ok (.modexp .x2 .x0 .x1 .x3) := rfl
-- V-LEG-10
theorem test_decode_modred :
    decode 0b00000000_0011_0000_0000_0001_00100001#32 = .ok (.modred .x1 .x0 .x3) := rfl
-- V-LEG-11
theorem test_decode_mul :
    decode 0b00000000_0000_0001_0000_0011_00100010#32 = .ok (.mul .x3 .x0 .x1) := rfl
-- V-LEG-13
theorem test_decode_mov :
    decode 0b00000000_0000_0000_0010_0001_00110000#32 = .ok (.mov .x1 .x2) := rfl
-- V-LEG-17: imm16 = 1357, rs1, rd = 3, opcode 0x31
theorem test_decode_ldi :
    decode 0b0000010101001101_0000_0011_00110001#32 = .ok (.ldi .x3 1357#16) := rfl
-- V-LEG-19
theorem test_decode_cmp :
    decode 0b00000000_0000_0000_0010_0000_00110010#32 = .ok (.cmp .x2 .x0) := rfl
-- V-ILL-1 to V-ILL-5
theorem test_decode_reserved_opcodes :
    [0x00000000#32, 0x00000014#32, 0x00000023#32, 0x00000033#32, 0x000000FF#32].map refusedBy =
      List.replicate 5 (some .opcode) := by decide
-- V-ILL-6, 9, 12, 14, 15, 16, 17
theorem test_decode_register_fields :
    [0x00000410#32, 0x00004011#32, 0x00024012#32, 0x00400220#32, 0x00340220#32, 0x00314220#32,
      0x00310420#32].map refusedBy =
      [some (.register .rd), some (.register .rs1), some (.register .rs1), some (.register .rs3),
        some (.register .rs2), some (.register .rs1), some (.register .rd)] := by decide
-- V-ILL-7, 8, 10, 11, 13, 18, 19, 20, 21, 22, 23, 24
theorem test_decode_unused_fields :
    [0x00001010#32, 0x01000010#32, 0x00000111#32, 0x00021112#32, 0x00010013#32, 0x01310220#32,
      0x00310021#32, 0x00100322#32, 0x80000030#32, 0x00141031#32, 0x00000132#32,
      0x00330032#32].map refusedBy =
      [some (.unused .rs1), some (.unused .zero), some (.unused .rd), some (.unused .rd),
        some (.unused .rs2), some (.unused .zero), some (.unused .rs2), some (.unused .rs3),
        some (.unused .zero), some (.unused .rs1), some (.unused .rd), some (.unused .rs3)] := by
  decide
-- The table's word numbering, for its first row
theorem test_decodeTableWord : decodeTableWord 32 0x00000310 = some (.dec .x3) := by decide

/-! ## One command each (95_test_vectors.md sections 2.2 to 2.9, 2.11) -/

-- V-DEC-2
theorem test_dec : regs (exec (.dec .x0) (holding [3, 2, 4] 3 (at32 7 0 0 0))) =
    some (⟨49412, 0, 0, 0⟩, 0x00000002#32) := by decide
-- V-DEC-14: DIGIT_RANGE before OVERFLOW
theorem test_dec_digit_before_overflow :
    regs (exec (.dec .x0) (holding [16, 0, 0, 0, 128] 5 (at32 7 0 0 0))) =
      some (⟨7, 0, 0, 0⟩, 0x00000304#32) := by decide
-- V-ENC-8, from a buffer of nines
theorem test_enc : digs 5 (exec (.enc .x1) (holding [9, 9, 9, 9, 9] 3 (at32 0 4294967295 0 0))) =
    some ([15, 127, 127, 127, 127], 5, 0x00000002#32) := by decide
-- V-ENC-5
theorem test_enc_zero : digs 5 (exec (.enc .x1) (holding [9, 9, 9, 9, 9] 3 (at32 0 0 0 0))) =
    some ([9, 9, 9, 9, 9], 3, 0x00000604#32) := by decide
-- V-ENCW-1
theorem test_encw : digs 5 (exec (.encw .x0 2) (holding [9, 9, 9, 9, 9] 3 (at32 65 0 0 0))) =
    some ([0, 65, 0, 0, 0], 2, 0x00000002#32) := by decide
-- V-ENCW-6
theorem test_encw_width :
    digs 5 (exec (.encw .x0 2) (holding [9, 9, 9, 9, 9] 3 (at32 16384 0 0 0))) =
      some ([9, 9, 9, 9, 9], 3, 0x00000704#32) := by decide
-- V-BLK-4
theorem test_blklen : regs (exec (.blklen .x1 .x3) (at32 0 9 0 2097151)) =
    some (⟨0, 2, 0, 2097151⟩, 0x00000002#32) := by decide
-- V-BLK-12
theorem test_blklen_wide : regs (exec (.blklen .x1 .x3) (at64 0 9 0 9223372036854775808)) =
    some (⟨0, 9, 0, 9223372036854775808⟩, 0x00000002#32) := by decide
-- V-MODEXP-1
theorem test_modexp : regs (exec (.modexp .x2 .x0 .x1 .x3) (at32 20 115 7 1357)) =
    some (⟨20, 115, 1183, 1357⟩, 0x00000002#32) := by decide
-- Register overlap of section 2.6: base = exponent = destination, 3^3 mod 200
theorem test_modexp_overlap : regs (exec (.modexp .x0 .x0 .x0 .x3) (at32 3 0 0 200)) =
    some (⟨27, 0, 0, 200⟩, 0x00000002#32) := by decide
-- V-MODRED-5
theorem test_modred : regs (exec (.modred .x0 .x0 .x3) (at32 4294967295 0 0 1357)) =
    some (⟨1230, 0, 0, 1357⟩, 0x00000002#32) := by decide
-- V-MODRED-10
theorem test_modred_small : regs (exec (.modred .x0 .x0 .x3) (at32 5 0 0 127)) =
    some (⟨5, 0, 0, 127⟩, 0x00000804#32) := by decide
-- V-MUL-6
theorem test_mul : regs (exec (.mul .x3 .x0 .x1) (at32 65535 65537 0 9)) =
    some (⟨65535, 65537, 0, 4294967295⟩, 0x00000002#32) := by decide
-- V-MUL-7
theorem test_mul_overflow : regs (exec (.mul .x3 .x0 .x1) (at32 65536 65536 0 9)) =
    some (⟨65536, 65536, 0, 9⟩, 0x00000504#32) := by decide
-- V-MOV-1
theorem test_mov : regs (exec (.mov .x1 .x2) (at32 1 2 3 4)) =
    some (⟨1, 3, 3, 4⟩, 0x00000002#32) := by decide
-- V-LDI-3
theorem test_ldi :
    regs (exec (.ldi .x2 65535) (at64 18446744073709551615 18446744073709551615
      18446744073709551615 18446744073709551615)) =
      some (⟨18446744073709551615, 18446744073709551615, 65535, 18446744073709551615⟩,
        0x00000002#32) := by decide
-- V-CMP-5 and V-CMP-7
theorem test_cmp_less : regs (exec (.cmp .x0 .x1) (at32 0 4294967295 0 0)) =
    some (⟨0, 4294967295, 0, 0⟩, 0x00000022#32) := by decide
theorem test_cmp_equal : regs (exec (.cmp .x2 .x2) (at32 0 0 4 0)) =
    some (⟨0, 0, 4, 0⟩, 0x00000012#32) := by decide

-- V-RST-9: the first command after reset, run by a step
theorem test_step_first : regs (step (State.reset.withFetchWord 32 0x00140031)) =
    some (⟨20, 0, 0, 0⟩, 0x00000002#32) := by decide
-- V-RST-11: word 0 is no command
theorem test_step_illegal : regs (step (State.reset.withFetchWord 32 0x00000000)) =
    some (⟨0, 0, 0, 0⟩, 0x00000104#32) := by decide
-- From reset with nothing placed the state holds (notes/assumptions/3.md)
theorem test_step_idle : after (step State.reset) = some State.reset := by decide

/-! ## One access each (95_test_vectors.md section 2.10) -/

-- V-BUS-A 1, 2, 9, 10, 11, 13 and a narrow access (20_memory.md R67)
theorem test_reads : [(0x0000#13, 4), (0x0004#13, 4), (0x0018#13, 4), (0x0408#13, 4), (0x1004#13, 4),
    (0x1001#13, 4), (0x000C#13, 2)].map (fun a => busRead (at32 5 0 0 0) a.1 a.2) =
    [(0x4D458001#32, false), (0x00050020#32, false), (0, true), (0, true), (0, true), (0, true),
      (0, true)] := by decide
-- V-BUS-A 17, 18: only entry 4 exists in DBUF word 1
theorem test_dbuf_lane : busRead (busWrite (at32 0 0 0 0) 0x0404 4 0xAABBCCDD#32).1 0x0404 4 =
    (0x000000DD#32, false) := by decide
-- V-BUS-A 19, 20: bits 31:16 ignored, a value above DMAX stored
theorem test_dlen_write : busRead (busWrite (at32 0 0 0 0) 0x0014 4 0xABCD0007#32).1 0x0014 4 =
    (0x00000007#32, false) := by decide
-- V-BUS-C 2, 3, 5: word order and the stale upper word
theorem test_x_words : (busWrite (at64 0x0123456789ABCDEF 0 0 0) 0x1000 4 0x00000005#32).1.x.x0 =
    0x0123456700000005 := by decide
-- V-BUS-B 5: an operand write in phase BUSY is refused
theorem test_busy_write :
    busWrite (running 0x00010322#32 [] (at32 23 59 0 0)) 0x1000 4 0x63#32 =
      (running 0x00010322#32 [] (at32 23 59 0 0), true) := by decide
-- V-BUS-B 25 to 27: issue refused in HALT, DONE alone not enough, then CLRERR
theorem test_halt_issue :
    (busWrite (halted (at32 0 0 5 0)) 0x0008 4 0x00002011#32).2 = true ∧
    (busWrite (halted (at32 0 0 5 0)) 0x000C 4 0x00000002#32).1.phase = .halt ∧
    (busWrite (halted (at32 0 0 5 0)) 0x000C 4 0x00000004#32).1 = at32 0 0 5 0 := by decide
-- V-BUS-B 31, 32: reset in BUSY abandons the command
theorem test_reset_busy :
    after (step (running 0x00310220#32 [.reset] (at32 23 59 5 1357))) =
      some { State.resetWith ⟨32⟩ with trace := [.reset] } := by decide
-- WRD [3, 2, 4] of 43_host_sequences.md R173
theorem test_wrd : wrd [3, 2, 4] =
    [.write 0x0400 4 0x00040203#32, .write 0x0014 4 0x00000003#32] := by decide
-- V-DIG-1
theorem test_len_times_sum : lenTimesSum ['h', 'e', 'l', 'l', 'o'] = 2660 := by decide

/-! ## Witnesses: for each statement with hypotheses, concrete values that meet them together, and for
each clause of a statement values at a boundary of its range -/

theorem witness_EncodeOfDecodeIsTheWord : decode 0x00000310#32 = .ok (.dec .x3) := rfl

theorem witness_StepRunsTheDecodedCommand :
    (let s := running 0x00140031#32 [] (at32 0 0 0 0)
     s.busy = true ∧ decode s.cmd = .ok (.ldi .x0 20) ∧ s.inputs = [] ∧
      ∃ t, exec (.ldi .x0 20) s = .next t) ∧
    (let s := running 0x00140031#32 [.engine, .reset] (at32 0 0 0 0)
     s.busy = true ∧ decode s.cmd = .ok (.ldi .x0 20) ∧ s.inputs = .engine :: [.reset] ∧
      ∃ t, exec (.ldi .x0 20) { s with inputs := [.reset] } = .next t) :=
  ⟨⟨rfl, rfl, rfl, _, rfl⟩, rfl, rfl, rfl, _, rfl⟩

theorem witness_PlacedCommandRunsNext :
    decodeTableWord 32 0x00140031 = some (.ldi .x0 20) ∧
    ∃ t, exec (.ldi .x0 20) { State.reset with
      cmd := tableWord 32 0x00140031, busy := true, done := false, err := false, ecode := 0 } =
        .next t := ⟨by decide, _, rfl⟩

theorem witness_IllegalWordFaultsAtCompletion :
    (let s := running 0x00000014#32 [] (at32 0 0 0 0)
     s.busy = true ∧ decode s.cmd = .error .opcode ∧ s.inputs = []) ∧
    (let s := running 0x00000014#32 [.engine, .reset] (at32 0 0 0 0)
     s.busy = true ∧ decode s.cmd = .error .opcode ∧ s.inputs = .engine :: [.reset]) :=
  ⟨⟨rfl, rfl, rfl⟩, rfl, rfl, rfl⟩

/-- `n = 1` and `n = DMAX = 5`, the largest value. -/
theorem witness_DecDeliversTheValue :
    (let s := holding [127] 1 (at32 0 0 0 0)
     s.dlen.toNat = 1 ∧ 1 ≤ s.cfg.dmax ∧ (∀ i < 1, (s.digit i).toNat < 128) ∧
      (∑ i ∈ Finset.range 1, (s.digit i).toNat * 128 ^ (1 - 1 - i)) < 2 ^ s.cfg.W) ∧
    (let s := holding [15, 127, 127, 127, 127] 5 (at32 0 0 0 0)
     s.dlen.toNat = 5 ∧ 5 ≤ s.cfg.dmax ∧ (∀ i < 5, (s.digit i).toNat < 128) ∧
      (∑ i ∈ Finset.range 5, (s.digit i).toNat * 128 ^ (5 - 1 - i)) < 2 ^ s.cfg.W) := by
  decide

/-- `DLEN` 0, `DMAX + 1`, an entry 128, and the value `2^32`. -/
theorem witness_DecFaultsInOrder :
    (holding [] 0 (at32 0 0 0 0)).dlen.toNat = 0 ∧
    (let s := holding [1, 2, 3, 4, 5] 6 (at32 0 0 0 0)
     s.dlen.toNat = 6 ∧ s.cfg.dmax < 6) ∧
    (let s := holding [3, 128, 4] 3 (at32 0 0 0 0)
     s.dlen.toNat = 3 ∧ 3 ≤ s.cfg.dmax ∧ ∃ i < 3, 128 ≤ (s.digit i).toNat) ∧
    (let s := holding [16, 0, 0, 0, 0] 5 (at32 0 0 0 0)
     s.dlen.toNat = 5 ∧ 5 ≤ s.cfg.dmax ∧ (∀ i < 5, (s.digit i).toNat < 128) ∧
      2 ^ s.cfg.W ≤ ∑ i ∈ Finset.range 5, (s.digit i).toNat * 128 ^ (5 - 1 - i)) := by
  decide

/-- The values 1 and `2^32 - 1`. -/
theorem witness_EncWritesTheMinimalDigits :
    (at32 0 1 0 0).cfg.legal ∧ 1 ≤ (at32 0 1 0 0).getX .x1 ∧
      (at32 0 1 0 0).getX .x1 < 2 ^ (at32 0 1 0 0).cfg.W ∧
    1 ≤ (at32 0 4294967295 0 0).getX .x1 ∧
      (at32 0 4294967295 0 0).getX .x1 < 2 ^ (at32 0 4294967295 0 0).cfg.W := by decide

theorem witness_EncodeZeroIsFromEncAlone :
    (at32 0 0 0 0).getX .x1 = 0 ∧ (at32 0 0 0 0).ecode ≠ 6 ∧
    ∃ t, exec (.enc .x1) (at32 0 0 0 0) = .next t ∧ t.ecode = 6 := ⟨rfl, by decide, _, rfl, rfl⟩

/-- Widths 1 and `DMAX`, each with the largest value that fits it. -/
theorem witness_EncwWritesExactlyTheWidth :
    (1 ≤ (1#16).toNat ∧ (1#16).toNat ≤ (at32 127 0 0 0).cfg.dmax ∧
      (at32 127 0 0 0).getX .x0 < 128 ^ (1#16).toNat) ∧
    (1 ≤ (5#16).toNat ∧ (5#16).toNat ≤ (at32 4294967295 0 0 0).cfg.dmax ∧
      (at32 4294967295 0 0 0).getX .x0 < 128 ^ (5#16).toNat) := by decide

/-- Widths 0 and `DMAX + 1`, and a value of one digit too many. -/
theorem witness_EncwFaultsInOrder :
    (0#16).toNat = 0 ∧ (at32 0 0 0 0).cfg.dmax < (6#16).toNat ∧
    1 ≤ (1#16).toNat ∧ (1#16).toNat ≤ (at32 128 0 0 0).cfg.dmax ∧
      128 ^ (1#16).toNat ≤ (at32 128 0 0 0).getX .x0 := by decide

theorem witness_BlklenIsTheExactLogarithm : 128 ≤ (at32 0 0 0 128).getX .x3 := by decide

theorem witness_ModexpDeliversThePowerModuloN :
    128 ≤ (at32 127 3 0 128).getX .x3 ∧ (at32 127 3 0 128).getX .x0 < (at32 127 3 0 128).getX .x3 := by
  decide

theorem witness_ModexpFaultsInOrder :
    (at32 5 3 0 127).getX .x3 < 128 ∧
    128 ≤ (at32 128 3 0 128).getX .x3 ∧
      (at32 128 3 0 128).getX .x3 ≤ (at32 128 3 0 128).getX .x0 := by decide

theorem witness_SmallModulusFaults :
    (at32 0 0 0 127).getX .x3 < 128 ∧ (at32 0 0 0 0).getX .x3 < 128 ∧ (at32 0 0 0 0).ecode ≠ 8 ∧
    ∃ t, exec (.mul .x3 .x0 .x1) (at32 11 11 0 0) = .next t :=
  ⟨by decide, by decide, by decide, _, rfl⟩

theorem witness_ModredDeliversTheRemainder : 128 ≤ (at32 4294967295 0 0 128).getX .x3 := by decide

/-- The products `2^32 - 1` and `2^32`. -/
theorem witness_MulIsExactOrOverflows :
    (at32 65535 65537 0 0).getX .x0 * (at32 65535 65537 0 0).getX .x1 <
      2 ^ (at32 65535 65537 0 0).cfg.W ∧
    2 ^ (at32 65536 65536 0 0).cfg.W ≤
      (at32 65536 65536 0 0).getX .x0 * (at32 65536 65536 0 0).getX .x1 := by decide

/-- The product and the digit value `2^32`, and an `OVERFLOW` on a well-formed state. -/
theorem witness_NoCommandWraps :
    2 ^ (at32 65536 65536 0 0).cfg.W ≤
      (at32 65536 65536 0 0).getX .x0 * (at32 65536 65536 0 0).getX .x1 ∧
    (let s := holding [16, 0, 0, 0, 0] 5 (at32 0 0 0 0)
     s.dlen.toNat = 5 ∧
      2 ^ s.cfg.W ≤ ∑ i ∈ Finset.range 5, (s.digit i).toNat * 128 ^ (5 - 1 - i)) ∧
    (∃ t, exec (.mul .x3 .x0 .x1) (at32 65536 65536 0 0) = .next t ∧ t.ecode = 5) ∧
    (at32 65536 65536 0 0).ecode ≠ 5 ∧ (at32 65536 65536 0 0).cfg.legal ∧
    (at32 65536 65536 0 0).regsFit := ⟨by decide, by decide, ⟨_, rfl, rfl⟩, by decide⟩

/-- The value 1 for `ENC`, and 0 and 127 for `ENCW` of width 1. -/
theorem witness_EncodeThenDecodeRestoresTheValue :
    (at32 0 0 0 0).cfg.legal ∧ (at32 0 1 0 0).getX .x1 < 2 ^ (at32 0 1 0 0).cfg.W ∧
    1 ≤ (at32 0 1 0 0).getX .x1 ∧
    1 ≤ (1#16).toNat ∧ (1#16).toNat ≤ (at32 0 0 0 0).cfg.dmax ∧
    (at32 0 0 0 0).getX .x1 < 128 ^ (1#16).toNat ∧
    (at32 0 127 0 0).getX .x1 < 128 ^ (1#16).toNat := by decide

/-- Two leading zeros, no leading zero, and all zeros. -/
theorem witness_DecodeThenEncodeRestoresTheDigits :
    (let s := holding [0, 0, 65] 3 (at32 0 0 0 0)
     s.cfg.legal ∧ s.dlen.toNat = 3 ∧ 3 ≤ s.cfg.dmax ∧ (∀ i < 3, (s.digit i).toNat < 128) ∧
      (∑ i ∈ Finset.range 3, (s.digit i).toNat * 128 ^ (3 - 1 - i)) < 2 ^ s.cfg.W ∧
      (∀ i < 2, s.digit i = 0) ∧ s.digit 2 ≠ 0) ∧
    (let s := holding [127] 1 (at32 0 0 0 0)
     s.dlen.toNat = 1 ∧ 1 ≤ s.cfg.dmax ∧ (∀ i < 1, (s.digit i).toNat < 128) ∧
      (∑ i ∈ Finset.range 1, (s.digit i).toNat * 128 ^ (1 - 1 - i)) < 2 ^ s.cfg.W ∧
      s.digit 0 ≠ 0) ∧
    (let s := holding [] 5 (at32 0 0 0 0)
     s.dlen.toNat = 5 ∧ 5 ≤ s.cfg.dmax ∧ (∀ i < 5, (s.digit i).toNat < 128) ∧
      (∑ i ∈ Finset.range 5, (s.digit i).toNat * 128 ^ (5 - 1 - i)) < 2 ^ s.cfg.W ∧
      ∀ i < 5, s.digit i = 0) := by decide

/-- The modulus 128: its block length is 1, and a block of one digit 127 is decoded to `x1`. -/
theorem witness_BlockLengthFitsTheModulus :
    let s := at32 0 0 0 128
    let p := holding [127] 1 (at32 0 0 0 128)
    s.regsFit ∧ 128 ≤ s.getX .x3 ∧
    ∃ t, exec (.blklen .x0 .x3) s = .next t ∧ p.cfg = s.cfg ∧ p.getX .x3 = s.getX .x3 ∧
      XReg.x1 ≠ XReg.x3 ∧ p.dlen.toNat = t.getX .x0 ∧ ∀ i < t.getX .x0, (p.digit i).toNat < 128 :=
  ⟨by decide, by decide, _, rfl, rfl, rfl, by decide, by decide, by decide⟩

theorem witness_ResultsStayBelowTheModulus :
    128 ≤ (at32 127 3 0 128).getX .x3 ∧ (at32 127 3 0 128).getX .x0 < (at32 127 3 0 128).getX .x3 ∧
    (∃ t, exec (.modred .x2 .x0 .x3) (at32 127 3 0 128) = .next t ∧
      t.getX .x3 = (at32 127 3 0 128).getX .x3) ∧
    ∃ t, exec (.modexp .x2 .x0 .x1 .x3) (at32 127 3 0 128) = .next t ∧
      t.getX .x3 = (at32 127 3 0 128).getX .x3 :=
  ⟨by decide, by decide, ⟨_, rfl, by decide⟩, _, rfl, by decide⟩

/-- Bases just below the modulus and equal to it. -/
theorem witness_ExponentOneIsReductionBelowTheModulus :
    ((at32 127 1 0 128).getX .x1 = 1 ∧ 128 ≤ (at32 127 1 0 128).getX .x3 ∧
      (at32 127 1 0 128).getX .x0 < (at32 127 1 0 128).getX .x3) ∧
    ((at32 128 1 0 128).getX .x1 = 1 ∧ 128 ≤ (at32 128 1 0 128).getX .x3 ∧
      (at32 128 1 0 128).getX .x3 ≤ (at32 128 1 0 128).getX .x0) := by decide

theorem witness_ExponentiationAtZero :
    (128 ≤ (at32 0 0 0 128).getX .x3 ∧ (at32 0 0 0 128).getX .x1 = 0 ∧
      (at32 0 0 0 128).getX .x0 < (at32 0 0 0 128).getX .x3) ∧
    (128 ≤ (at32 0 1 0 128).getX .x3 ∧ (at32 0 1 0 128).getX .x0 = 0 ∧
      1 ≤ (at32 0 1 0 128).getX .x1) := by decide

theorem witness_OnlyTheDestinationRegisterChanges :
    (∃ t, exec (.mov .x1 .x2) (at32 1 2 3 4) = .next t) ∧ XReg.x0 ≠ XReg.x1 ∧
    ∃ t, exec (.cmp .x1 .x2) (at32 1 2 3 4) = .next t := ⟨⟨_, rfl⟩, by decide, _, rfl⟩

/-- Entry 2 differs and `DLEN` is 2. -/
theorem witness_OnlyEncodersWriteTheDigitBuffer :
    (∃ t, exec (.mov .x1 .x2) (at32 1 2 3 4) = .next t) ∧
    (∀ a, Instr.mov .x1 .x2 ≠ .enc a) ∧ (∀ a v, Instr.mov .x1 .x2 ≠ .encw a v) ∧
    (let s := holding [1, 2, 3] 2 (at32 7 0 0 0)
     (∃ t, exec (.dec .x0) s = .next t) ∧
     ∀ i < s.dlen.toNat, ({ s with dbuf := Memory.fill [1, 2, 200] 5 [] } : State).digit i = s.digit i) :=
  ⟨⟨_, rfl⟩, by simp, by simp, ⟨_, rfl⟩, by decide⟩

theorem witness_CommandsLeaveTheRestAlone :
    ∃ t, exec (.mov .x1 .x2) (at32 1 2 3 4) = .next t := ⟨_, rfl⟩

theorem witness_FaultsHaveNoPartialEffect :
    let s := running 0x00001011#32 [] (at32 0 0 0 0)
    ∃ t, step s = .next t ∧ s.err = false ∧ t.err = true := ⟨_, rfl, rfl, rfl⟩

/-- A `CMP` at its completion, a reset, and a command that reads no flag. -/
theorem witness_OnlyCmpWritesTheFlags :
    (let s := running 0x00010032#32 [] (at32 5 5 0 0)
     ∃ t, step s = .next t ∧ t.eq ≠ s.eq) ∧
    (let s := running 0x00010032#32 [.reset] (at32 5 5 0 0)
     s.inputs.head? = some .reset ∧ ∃ t, step s = .next t) ∧
    (∃ t, exec (.mov .x1 .x2) (at32 1 2 3 4) = .next t) ∧ (∀ a b, Instr.mov .x1 .x2 ≠ .cmp a b) :=
  ⟨⟨_, rfl, by decide⟩, ⟨rfl, _, rfl⟩, ⟨_, rfl⟩, by simp⟩

/-- An issue, a completion, a fault, a clearing of `ERR` and a reset, each a change of phase. -/
theorem witness_NoOtherPhaseTransition :
    [{ at32 0 0 0 0 with inputs := [.write 0x0008 4 0x00000031#32] },
      running 0x00000031#32 [] (at32 0 0 0 0), running 0x00000011#32 [] (at32 0 0 0 0),
      { halted (at32 0 0 0 0) with inputs := [.write 0x000C 4 0x00000004#32] },
      { halted (at32 0 0 0 0) with inputs := [.reset] }].all (fun s =>
        decide s.statusOk && (after (step s)).any (fun t => decide (t.phase ≠ s.phase))) = true := by
  decide

theorem witness_HaltKeepsTheFault :
    let s := { halted (at32 0 0 0 0) with inputs := [.write 0x0008 4 0x00000031#32] }
    s.phase = .halt ∧ (∃ t, step s = .next t) ∧ s.inputs.head? ≠ some .reset ∧
    ∀ w : Word, w.getLsbD 2 = true → s.inputs.head? ≠ some (.write 0x000C 4 w) :=
  ⟨rfl, ⟨_, rfl⟩, by decide, by intro w _ h; simp at h⟩

theorem witness_RefusedAccessChangesNothing :
    (busRead (at32 5 0 0 0) 0x1004 4).2 = true ∧ (busWrite (at32 5 0 0 0) 0x1004 4 1).2 = true := by
  decide

theorem witness_AccessesAdmittedByMapAndPhase :
    (at32 0 0 0 0).cfg.legal ∧ (State.resetWith ⟨4096⟩).cfg.legal := by decide

theorem witness_TransactionsStepThroughTheBus :
    ({ at32 0 0 0 0 with inputs := [.read 0x1001 4] } : State).inputs = .read 0x1001 4 :: [] ∧
    ({ at32 0 0 0 0 with inputs := [.write 0x0400 4 0x01020304#32, .engine] } : State).inputs =
      .write 0x0400 4 0x01020304#32 :: [.engine] := ⟨rfl, rfl⟩

/-- Word 0 and the last word, `NW - 1`; another word and another register. -/
theorem witness_RegisterWordWriteReadsBack :
    (at64 0 0 0 0).cfg.legal ∧ (at64 0 0 0 0).phase ≠ .busy ∧ 0 < (at64 0 0 0 0).cfg.nw ∧
    1 < (at64 0 0 0 0).cfg.nw ∧ ¬ 2 < (at64 0 0 0 0).cfg.nw ∧ XReg.x0 ≠ XReg.x1 := by decide

theorem witness_DigitWordWriteSetsFourEntries :
    (at32 0 0 0 0).cfg.legal ∧ (halted (at32 0 0 0 0)).phase ≠ .busy ∧ 0 < (at32 0 0 0 0).cfg.ndw ∧
    1 < (at32 0 0 0 0).cfg.ndw ∧ ¬ 2 < (at32 0 0 0 0).cfg.ndw := by decide

theorem witness_StatusWriteClearsWhatItNames :
    (halted (at32 0 0 0 0)).phase = .halt ∧ (0x00000004#32).getLsbD 2 = true := by decide

theorem witness_LengthRegisterStoresAnyValue :
    (at32 0 0 0 0).phase ≠ .busy ∧ (halted (at32 0 0 0 0)).phase ≠ .busy := by decide

theorem witness_CommandWriteIssuesOnlyWhenIdle :
    (at32 0 0 0 0).phase = .idle ∧ (halted (at32 0 0 0 0)).phase ≠ .idle ∧
    (running 0 [] (at32 0 0 0 0)).phase ≠ .idle := by decide

theorem witness_IdentityRegistersAreConstant : (State.resetWith ⟨4096⟩).cfg.legal := by decide

theorem witness_WrxLeavesTheInteger :
    let s := { at64 1 2 3 4 with inputs := wrx ⟨64⟩ .x0 18446744073709551615 }
    s.Inv ∧ s.phase ≠ .busy ∧ 18446744073709551615 < 2 ^ s.cfg.W ∧
    s.inputs = wrx s.cfg .x0 18446744073709551615 := by decide

theorem witness_ResetClearsEverything :
    (running 0x00310220#32 [.reset, .engine] (at32 1 2 3 4)).inputs = .reset :: [.engine] := rfl

/-- The least and the greatest width. -/
theorem witness_ResetValuesOfTheSpec : Config.legal ⟨32⟩ ∧ Config.legal ⟨4096⟩ := by decide

/-- Widths 1 and `DMAX` of `ENCW`. -/
theorem witness_FirstCommandAfterReset :
    Config.legal ⟨32⟩ ∧ running 0x00020012#32 [] (at32 0 0 0 0) =
      (State.resetWith ⟨32⟩).issue 0x00020012#32 ∧
    (1 ≤ (1#16).toNat ∧ (1#16).toNat ≤ Config.dmax ⟨32⟩) ∧
    (1 ≤ (5#16).toNat ∧ (5#16).toNat ≤ Config.dmax ⟨32⟩) := by decide

theorem witness_ResetIsWellFormed : Config.legal ⟨32⟩ := by decide

theorem witness_StepsKeepTheStatusInvariants :
    (running 0x00010032#32 [] (at32 5 5 0 0)).statusOk ∧
    ∃ t, step (running 0x00010032#32 [] (at32 5 5 0 0)) = .next t := ⟨by decide, _, rfl⟩

theorem witness_StepsKeepTheMachineWellFormed :
    (running 0x00001011#32 [] (at32 0 5 0 0)).Inv ∧
    ∃ t, step (running 0x00001011#32 [] (at32 0 5 0 0)) = .next t := ⟨by decide, _, rfl⟩

theorem witness_NoStepChangesTheWidth :
    ∃ t, step (running 0x00001011#32 [.reset] (at64 0 5 0 0)) = .next t := ⟨_, rfl⟩

/-- A poll, a refused operand write and a `STATUS` write while a `MUL` runs. -/
theorem witness_OutcomeIsThatOfTheStateAtIssue :
    let evs : List Event := [.read 0x000C 4, .write 0x1000 4 0x63#32, .write 0x000C 4 0x6#32]
    let s := running 0x00010322#32 (evs ++ [.engine]) (at32 23 59 0 0)
    s.statusOk ∧ s.busy = true ∧ s.inputs = evs ++ [.engine] ∧
    (∀ e ∈ evs, (∃ off size, e = .read off size) ∨ ∃ off size v, e = .write off size v) ∧
    ∃ u, evaluate s = .next u := ⟨by decide, rfl, rfl, by simp, _, rfl⟩

theorem witness_RunningCommandsComplete :
    (running 0x00010322#32 [.read 0x000C 4] (at32 23 59 0 0)).busy = true ∧
    .reset ∉ (running 0x00010322#32 [.read 0x000C 4] (at32 23 59 0 0)).inputs := by decide

end Sys2Proof.Tests
end

/-! SUPPORT. The invariants of ME128: what a step must keep for a property of states to last, and that
the status bits, the registers and the digit buffer are kept (10_state.md R21, R36, R37, R40). -/

namespace Sys2Proof.Machine

/-! ## The phase, by its bits -/

theorem State.phase_eq_busy_iff (s : State) : s.phase = .busy ↔ s.busy = true := by
  unfold State.phase
  cases s.busy <;> cases s.err <;> simp

theorem State.phase_eq_idle_iff (s : State) : s.phase = .idle ↔ s.busy = false ∧ s.err = false := by
  unfold State.phase
  cases s.busy <;> cases s.err <;> simp

theorem State.phase_eq_halt_iff (s : State) : s.phase = .halt ↔ s.busy = false ∧ s.err = true := by
  unfold State.phase
  cases s.busy <;> cases s.err <;> simp

/-- The phase depends on `BUSY` and `ERR` alone. -/
theorem State.phase_congr {s t : State} (hb : t.busy = s.busy) (he : t.err = s.err) :
    t.phase = s.phase := by
  unfold State.phase
  rw [hb, he]

/-- A write of `CMD` is admitted in phase `IDLE` alone. -/
theorem phase_of_cmd_admitted {p : Phase} (h : writeAdmitted p .cmd = true) : p = .idle := by
  simpa [writeAdmitted] using h

/-! ## Steps -/

/-- What a property of states must survive to be kept by every step: the model's own fields moving on,
an admitted write, a reset, the fault of an illegal word, and a command run in phase `BUSY`. -/
theorem step_keeps (P : State → Prop)
    (hmodel : ∀ s inputs trace, P s → P { s with inputs := inputs, trace := trace })
    (hwrite : ∀ s off size v tg, targetAt s.cfg off size = some tg →
      writeAdmitted s.phase tg = true → P s → P (writeTarget s v tg))
    (hreset : ∀ s, P s → P (State.resetWith s.cfg))
    (hillegal : ∀ s, s.busy = true → P s → P (s.takeFault .illegalCmd))
    (hexec : ∀ i s t, s.busy = true → exec i s = .next t → P s → P t)
    {s t : State} (h : step s = .next t) (hs : P s) : P t := by
  have hrest : ∀ rest, P { s with inputs := rest } := fun rest => hmodel s rest s.trace hs
  have g := step_goes s
  rw [h] at g
  cases g with
  | read => exact hmodel _ _ _ hs
  | refused => exact hmodel _ _ _ hs
  | write off size v rest tg _ ht ha => exact hmodel _ _ _ (hwrite _ off size v tg ht ha (hrest rest))
  | reset rest => exact hmodel _ _ _ (hreset s hs)
  | idle rest => exact hrest rest
  | illegal rest _ hb => exact hmodel _ _ _ (hillegal _ hb (hrest rest))
  | completion rest _ hb i _ t ht =>
    exact hmodel _ _ _ (hexec i { s with inputs := rest } t hb ht (hrest rest))

/-! ## The status bits (10_state.md R36) -/

theorem State.statusOk_resetWith (c : Config) : (State.resetWith c).statusOk := by
  simp [State.statusOk, State.resetWith]

/-- In phase `BUSY` no completion or fault is outstanding. -/
theorem State.statusOk.of_busy {s : State} (h : s.statusOk) (hb : s.busy = true) :
    s.done = false ∧ s.err = false ∧ s.ecode = 0 := by
  obtain ⟨hbusy, -, hcode, -⟩ := h
  obtain ⟨hdone, herr⟩ := hbusy hb
  exact ⟨hdone, herr, by simpa [herr] using hcode⟩

theorem State.statusOk_takeFault {s : State} (h : s.statusOk) (hb : s.busy = true) (c : FaultCode) :
    (s.takeFault c).statusOk := by
  obtain ⟨hdone, -, -⟩ := h.of_busy hb
  exact ⟨by simp, by simp [hdone], by simpa using c.code_ne_zero, h.2.2.2⟩

theorem State.statusOk_deliver {s : State} (h : s.statusOk) (hb : s.busy = true) :
    s.deliver.statusOk := by
  obtain ⟨-, herr, hcode⟩ := h.of_busy hb
  exact ⟨by simp, by simp [herr], by simp [herr, hcode], h.2.2.2⟩

theorem State.statusOk_setFlags {s : State} (h : s.statusOk) (a b : Nat) :
    (s.setFlags (eqFlag a b) (ltFlag a b)).statusOk := by
  obtain ⟨hbusy, hone, hcode, -⟩ := h
  refine ⟨hbusy, hone, hcode, ?_⟩
  simp only [setFlags_eq, setFlags_lt, eqFlag, ltFlag, decide_eq_true_eq]
  omega

theorem State.statusOk_issue {s : State} (h : s.statusOk) (hi : s.phase = .idle) (w : Word) :
    (s.issue w).statusOk := by
  obtain ⟨-, herr⟩ := s.phase_eq_idle_iff.1 hi
  exact ⟨by simp [herr], by simp, h.2.2.1, h.2.2.2⟩

theorem State.statusOk_writeStatus {s : State} (h : s.statusOk) (v : Word) :
    (writeStatus s v).statusOk := by
  obtain ⟨hbusy, hone, hcode, hflags⟩ := h
  rw [writeStatus_eq]
  refine ⟨fun hb => ?_, ?_, ?_, hflags⟩
  · obtain ⟨hdone, herr⟩ := hbusy hb
    simp [hdone, herr]
  · simp only [Bool.and_eq_true]
    exact fun hde => hone ⟨hde.1.1, hde.2.1⟩
  · cases v.getLsbD 2
    · simpa using hcode
    · simp

theorem State.statusOk_writeTarget {s : State} (h : s.statusOk) {tg : Target}
    (ha : writeAdmitted s.phase tg = true) (v : Word) : (writeTarget s v tg).statusOk := by
  by_cases hcmd : tg = .cmd
  · subst hcmd
    exact State.statusOk_issue h (phase_of_cmd_admitted ha) v
  by_cases hstatus : tg = .status
  · subst hstatus
    exact State.statusOk_writeStatus h v
  obtain ⟨-, heq, hlt, -, -⟩ := writeTarget_frame s v tg
  obtain ⟨hbusy, -⟩ := writeTarget_busy s v tg hcmd
  obtain ⟨hdone, herr, hcode⟩ := writeTarget_status s v tg hcmd hstatus
  simpa only [State.statusOk, heq, hlt, hbusy, hdone, herr, hcode] using h

theorem exec_keeps_statusOk {i : Instr} {s t : State} (hb : s.busy = true) (h : exec i s = .next t)
    (hs : s.statusOk) : t.statusOk := by
  have e := exec_ends i s
  rw [h] at e
  cases e with
  | fault c => exact State.statusOk_takeFault hs hb c
  | register rd v => exact State.statusOk_deliver (s := s.setX rd v) hs hb
  | digits ds => exact State.statusOk_deliver (s := s.storeDigits ds) hs hb
  | flags a b => exact State.statusOk_deliver (State.statusOk_setFlags hs (s.getX a) (s.getX b)) hb

theorem step_keeps_statusOk {s t : State} (h : step s = .next t) (hs : s.statusOk) : t.statusOk :=
  step_keeps State.statusOk (fun _ _ _ hs => hs) (fun _ _ _ v _ _ ha hs => State.statusOk_writeTarget hs ha v)
    (fun s _ => State.statusOk_resetWith s.cfg) (fun _ hb hs => State.statusOk_takeFault hs hb _)
    (fun _ _ _ hb he hs => exec_keeps_statusOk hb he hs) h hs

/-- Settles O56: reset meets the four invariants of the status bits, and each kind of step keeps them. -/
theorem stepsKeepTheStatusInvariants : Obligations.StepsKeepTheStatusInvariants :=
  ⟨State.statusOk_resetWith, fun _ _ hs h => step_keeps_statusOk h hs⟩

end Sys2Proof.Machine

/-! SUPPORT. The bounds and forms of ME128's data: results of commands and bus writes fit their
registers (10_state.md R21, 41_modular.md R151). -/

namespace Sys2Proof.Machine

/-! ## Results below `2^W` -/

theorem blockLengthLoop_le (k t len : Nat) : blockLengthLoop k t len ≤ len + t := by
  induction k generalizing t len with
  | zero => exact Nat.le_add_right len t
  | succ k ih =>
    unfold blockLengthLoop
    split
    · exact Nat.le_add_right len t
    · have := ih (t / 128) (len + 1)
      omega

theorem blockLength_le (n : Nat) : blockLength n ≤ n := by
  simpa [blockLength] using blockLengthLoop_le (bitlen n) n 0

theorem modExpLoop_lt {n : Nat} (hn : 0 < n) (b e k : Nat) {r : Nat} (hr : r < n) :
    modExpLoop b e n k r < n := by
  induction k generalizing r with
  | zero => exact hr
  | succ k ih =>
    apply ih
    split <;> exact Nat.mod_lt _ hn

theorem modExp_lt {n : Nat} (hn : 1 < n) (b e : Nat) : modExp b e n < n :=
  modExpLoop_lt (by omega) b e _ hn

/-- Replacing a word of an integer of `n` words leaves an integer of `n` words. -/
theorem withWord_lt {v j n : Nat} (w : Word) (hj : j < n) (hv : v < 2 ^ (32 * n)) :
    withWord v j w < 2 ^ (32 * n) := by
  obtain ⟨m, rfl⟩ : ∃ m, n = j + 1 + m := ⟨n - (j + 1), by omega⟩
  have hlow : v % 2 ^ (32 * j) < 2 ^ (32 * j) := Nat.mod_lt _ (by positivity)
  have hsplit : 2 ^ (32 * (j + 1 + m)) = 2 ^ (32 * (j + 1)) * 2 ^ (32 * m) := by
    rw [← pow_add]; congr 1; ring
  have hhigh : (v / 2 ^ (32 * (j + 1)) + 1) * 2 ^ (32 * (j + 1)) ≤ 2 ^ (32 * (j + 1 + m)) := by
    rw [hsplit, mul_comm (2 ^ (32 * (j + 1)))]
    exact Nat.mul_le_mul_right _ (Nat.div_lt_of_lt_mul (hsplit ▸ hv))
  have hmid : (w.toNat + 1) * 2 ^ (32 * j) ≤ 2 ^ (32 * (j + 1)) := by
    rw [show 32 * (j + 1) = 32 + 32 * j by ring, pow_add]
    exact Nat.mul_le_mul_right _ w.isLt
  unfold withWord
  rw [add_mul, one_mul] at hhigh hmid
  omega

/-! ## The X file -/

theorem State.regsFit_iff (s : State) : s.regsFit ↔ ∀ r, s.getX r < 2 ^ s.cfg.W := by
  refine ⟨fun h r => ?_, fun h => ⟨h .x0, h .x1, h .x2, h .x3⟩⟩
  obtain ⟨h0, h1, h2, h3⟩ := h
  cases r
  exacts [h0, h1, h2, h3]

theorem State.regsFit_setX {s : State} (h : s.regsFit) (rd : XReg) {v : Nat} (hv : v < 2 ^ s.cfg.W) :
    (s.setX rd v).regsFit := by
  rw [State.regsFit_iff] at h ⊢
  intro q
  rw [State.getX_setX]
  split
  · exact hv
  · exact h q

/-- Every immediate fits a register of an admitted width. -/
theorem immOperand_lt {c : Config} (hc : c.legal) (imm16 : BitVec 16) : immOperand imm16 < 2 ^ c.W :=
  imm16.isLt.trans_le (Nat.pow_le_pow_right (by decide) (by obtain ⟨-, h, -⟩ := hc; omega))

theorem regsFit_of_raise {c : FaultCode} {s t : State} (hs : s.regsFit) (h : raise c s = .next t) :
    t.regsFit := by
  cases h
  exact hs

theorem regsFit_of_finish_setX {s t : State} {rd : XReg} {v : Nat} (hs : s.regsFit)
    (hv : v < 2 ^ s.cfg.W) (h : finish (s.setX rd v) = .next t) : t.regsFit := by
  cases h
  exact State.regsFit_setX hs rd hv

/-- The result of every command fits its destination register (41_modular.md R151). -/
theorem exec_keeps_regsFit {i : Instr} {s t : State} (hc : s.cfg.legal) (h : exec i s = .next t)
    (hs : s.regsFit) : t.regsFit := by
  have hreg := s.regsFit_iff.1 hs
  cases i <;> simp only [exec] at h
  case dec rd =>
    unfold execDec at h
    repeat' split at h
    case isFalse.isFalse.isFalse.isFalse hv => exact regsFit_of_finish_setX hs (not_le.1 hv) h
    all_goals exact regsFit_of_raise hs h
  case enc a =>
    unfold execEnc at h
    split at h
    · exact regsFit_of_raise hs h
    · cases h; exact hs
  case encw a v =>
    unfold execEncw at h
    split at h
    · exact regsFit_of_raise hs h
    split at h
    · exact regsFit_of_raise hs h
    · cases h; exact hs
  case blklen rd a =>
    unfold execBlklen at h
    split at h
    · exact regsFit_of_raise hs h
    · exact regsFit_of_finish_setX hs ((blockLength_le _).trans_lt (hreg a)) h
  case modexp rd a b c =>
    unfold execModexp at h
    split at h
    · exact regsFit_of_raise hs h
    next hn =>
    split at h
    · exact regsFit_of_raise hs h
    · have hone : 1 < s.getX c := (show 1 < minMod by decide).trans_le (not_lt.1 hn)
      exact regsFit_of_finish_setX hs ((modExp_lt hone _ _).trans (hreg c)) h
  case modred rd a c =>
    unfold execModred at h
    split at h
    · exact regsFit_of_raise hs h
    · exact regsFit_of_finish_setX hs ((Nat.mod_le _ _).trans_lt (hreg a)) h
  case mul rd a b =>
    unfold execMul at h
    split at h
    · exact regsFit_of_raise hs h
    next hv => exact regsFit_of_finish_setX hs (not_le.1 hv) h
  case mov rd a => exact regsFit_of_finish_setX hs (hreg a) h
  case ldi rd v => exact regsFit_of_finish_setX hs (immOperand_lt hc v) h
  case cmp a b => cases h; exact hs

/-! ## The invariant -/

/-- An access reaches only words that exist of a register. -/
theorem targetAt_xWord_lt {c : Config} {off : Offset} {size : Nat} {r : XReg} {j : Nat}
    (h : targetAt c off size = some (.xWord r j)) : j < c.nw := by
  unfold targetAt at h
  split at h
  · rcases mapAt_cases h with h | h | h
    · simpa using controlAt_offset h
    · obtain ⟨-, -, h⟩ := dbufAt_eq_some h
      cases h
    · obtain ⟨-, -, hj, h⟩ := xAt_eq_some h
      cases h
      exact hj
  · cases h

theorem State.inv_resetWith {c : Config} (hc : c.legal) : (State.resetWith c).Inv :=
  ⟨hc, State.statusOk_resetWith c, Nat.zero_le 9, by simp [State.regsFit, State.resetWith], rfl, rfl⟩

/-- A write keeps the fault code in range, the registers below `2^W` and the digit buffer's form. -/
theorem State.inv_writeTarget {s : State} (h : s.Inv) {off : Offset} {size : Nat} {tg : Target}
    (ht : targetAt s.cfg off size = some tg) (ha : writeAdmitted s.phase tg = true) (v : Word) :
    (writeTarget s v tg).Inv := by
  have hst := State.statusOk_writeTarget h.2.1 ha v
  obtain ⟨hc, -, hcode, hregs, hdbuf⟩ := h
  cases tg with
  | id | cfg | cmd | ctrl | dlen => exact ⟨hc, hst, hcode, hregs, hdbuf⟩
  | status =>
    rw [show writeTarget s v .status = _ from writeStatus_eq s v] at hst ⊢
    refine ⟨hc, hst, ?_, hregs, hdbuf⟩
    cases v.getLsbD 2
    · simpa using hcode
    · simp
  | dbufWord k =>
    obtain ⟨m, hm, hok⟩ := writeTarget_dbufWord s v k
    rw [hm] at hst ⊢
    exact ⟨hc, hst, hcode, hregs, hok hdbuf⟩
  | xWord r j =>
    have hW : s.cfg.W = 32 * s.cfg.nw := by
      obtain ⟨hmod, -, -⟩ := hc
      unfold Config.nw
      omega
    have hv := s.regsFit_iff.1 hregs r
    refine ⟨hc, hst, hcode, State.regsFit_setX hregs r ?_, hdbuf⟩
    rw [hW] at hv ⊢
    exact withWord_lt v (targetAt_xWord_lt ht) hv

theorem State.inv_takeFault {s : State} (h : s.Inv) (hb : s.busy = true) (c : FaultCode) :
    (s.takeFault c).Inv := by
  obtain ⟨hc, hst, -, hregs, hdbuf⟩ := h
  exact ⟨hc, State.statusOk_takeFault hst hb c, c.code_range.2, hregs, hdbuf⟩

theorem exec_keeps_inv {i : Instr} {s t : State} (hb : s.busy = true) (h : exec i s = .next t)
    (hs : s.Inv) : t.Inv := by
  obtain ⟨hc, hst, hcode, hregs, hdbuf⟩ := hs
  have hst' := exec_keeps_statusOk hb h hst
  have hregs' := exec_keeps_regsFit hc h hregs
  have e := exec_ends i s
  rw [h] at e
  cases e with
  | fault c => exact ⟨hc, hst', c.code_range.2, hregs', hdbuf⟩
  | register => exact ⟨hc, hst', hcode, hregs', hdbuf⟩
  | digits ds => exact ⟨hc, hst', hcode, hregs', s.dbufOk_storeDigits ds hdbuf⟩
  | flags => exact ⟨hc, hst', hcode, hregs', hdbuf⟩

theorem step_keeps_inv {s t : State} (h : step s = .next t) (hs : s.Inv) : t.Inv :=
  step_keeps State.Inv (fun _ _ _ hs => hs) (fun _ _ _ v _ ht ha hs => State.inv_writeTarget hs ht ha v)
    (fun _ hs => State.inv_resetWith hs.1) (fun _ hb hs => State.inv_takeFault hs hb _)
    (fun _ _ _ hb he hs => exec_keeps_inv hb he hs) h hs

/-- Settles O57: each kind of step keeps the machine's invariant. -/
theorem stepsKeepTheMachineWellFormed : Obligations.StepsKeepTheMachineWellFormed :=
  fun _ _ hs h => step_keeps_inv h hs

/-- Settles O55: the invariant holds after reset, for every admitted width. -/
theorem resetIsWellFormed : Obligations.ResetIsWellFormed :=
  ⟨fun _ hc => State.inv_resetWith hc, State.inv_resetWith (by decide)⟩

end Sys2Proof.Machine

/-! SUPPORT. What a command reads and writes: its effect is fixed by its operands, and everything else
of the state passes through (10_state.md R22, R26, R39, R42). -/

namespace Sys2Proof.Machine

/-! ## Frames of commands -/

/-- Settles O32: of the four ways a command ends, one writes a register, and it is the destination. -/
theorem onlyTheDestinationRegisterChanges : Obligations.OnlyTheDestinationRegisterChanges := by
  intro i s t q h hq
  have e := exec_ends i s
  rw [h] at e
  cases e with
  | fault | digits | flags => rfl
  | register rd v hrd =>
    have hne : q ≠ rd := by
      cases i
      case enc | encw | cmp => exact hrd.elim
      all_goals exact hrd ▸ hq
    rw [State.deliver_getX, State.getX_setX, if_neg hne]

/-- Settles O34: no end of a command writes any of these. -/
theorem commandsLeaveTheRestAlone : Obligations.CommandsLeaveTheRestAlone := by
  intro i s t h
  have e := exec_ends i s
  rw [h] at e
  cases e <;> exact ⟨rfl, rfl, rfl, rfl, rfl, rfl, rfl⟩

theorem exec_dbuf_dlen {i : Instr} {s t : State} (h : exec i s = .next t) (henc : ∀ a, i ≠ .enc a)
    (hencw : ∀ a v, i ≠ .encw a v) : t.dbuf = s.dbuf ∧ t.dlen = s.dlen := by
  have e := exec_ends i s
  rw [h] at e
  cases e with
  | fault | register | flags => exact ⟨rfl, rfl⟩
  | digits _ hi =>
    obtain ⟨a, rfl⟩ | ⟨a, v, rfl⟩ := hi
    · exact absurd rfl (henc a)
    · exact absurd rfl (hencw a v)

/-! ## A command's effect -/

/-- What a command does to the state, its results computed: the data of one of its four ends. -/
inductive Effect where
  | fault (c : FaultCode)
  | register (rd : XReg) (v : Nat)
  | digits (ds : List Byte)
  | flags (eq lt : Bool)

/-- The state a command of this effect leaves. -/
def Effect.on (e : Effect) (s : State) : State :=
  match e with
  | .fault c => s.takeFault c
  | .register rd v => (s.setX rd v).deliver
  | .digits ds => (s.storeDigits ds).deliver
  | .flags eq lt => (s.setFlags eq lt).deliver

/-- The state `r` with the operands of `s` in it: all that a command reads. -/
def State.withOperands (r s : State) : State :=
  { r with cfg := s.cfg, x := s.x, dbuf := s.dbuf, dlen := s.dlen }

/-- The operands of `s` fix the effect of a command, and it is one on the flags for `CMP` alone. The
tests a command makes read the operands only, so they come out alike in every state that holds them. -/
theorem exec_effect (i : Instr) (s : State) :
    ∃ e : Effect, (∀ eq lt, e = .flags eq lt → ∃ a b, i = .cmp a b) ∧
      ∀ r : State, exec i (r.withOperands s) = .next (e.on (r.withOperands s)) := by
  cases i
  case dec rd =>
    by_cases hempty : lenOperand s = 0
    · exact ⟨.fault .empty, nofun, fun _ => if_pos hempty⟩
    by_cases hlen : lenOperand s > s.cfg.dmax
    · exact ⟨.fault .lenRange, nofun, fun _ => (if_neg hempty).trans (if_pos hlen)⟩
    by_cases hdigit : (digitsOperand s).any (fun d => decide (128 ≤ d.toNat)) = true
    · exact ⟨.fault .digitRange, nofun,
        fun _ => (if_neg hempty).trans <| (if_neg hlen).trans (if_pos hdigit)⟩
    by_cases hvalue : decodeDigits (digitsOperand s) ≥ 2 ^ s.cfg.W
    · exact ⟨.fault .overflow, nofun, fun _ => (if_neg hempty).trans <| (if_neg hlen).trans <|
        (if_neg hdigit).trans (if_pos hvalue)⟩
    · exact ⟨.register rd (decodeDigits (digitsOperand s)), nofun, fun _ => (if_neg hempty).trans <|
        (if_neg hlen).trans <| (if_neg hdigit).trans (if_neg hvalue)⟩
  case enc a =>
    by_cases hzero : regOperand s a = 0
    · exact ⟨.fault .encodeZero, nofun, fun _ => if_pos hzero⟩
    · exact ⟨.digits (digitsOf (regOperand s a) (ndigits (regOperand s a))), nofun,
        fun _ => if_neg hzero⟩
  case encw a v =>
    by_cases hlen : immOperand v = 0 ∨ immOperand v > s.cfg.dmax
    · exact ⟨.fault .lenRange, nofun, fun _ => if_pos hlen⟩
    by_cases hwidth : regOperand s a ≥ 128 ^ immOperand v
    · exact ⟨.fault .width, nofun, fun _ => (if_neg hlen).trans (if_pos hwidth)⟩
    · exact ⟨.digits (digitsOf (regOperand s a) (immOperand v)), nofun,
        fun _ => (if_neg hlen).trans (if_neg hwidth)⟩
  case blklen rd a =>
    by_cases hsmall : regOperand s a < minMod
    · exact ⟨.fault .modulusSmall, nofun, fun _ => if_pos hsmall⟩
    · exact ⟨.register rd (blockLength (regOperand s a)), nofun, fun _ => if_neg hsmall⟩
  case modexp rd a b c =>
    by_cases hsmall : regOperand s c < minMod
    · exact ⟨.fault .modulusSmall, nofun, fun _ => if_pos hsmall⟩
    by_cases hbase : regOperand s a ≥ regOperand s c
    · exact ⟨.fault .baseRange, nofun, fun _ => (if_neg hsmall).trans (if_pos hbase)⟩
    · exact ⟨.register rd (modExp (regOperand s a) (regOperand s b) (regOperand s c)), nofun,
        fun _ => (if_neg hsmall).trans (if_neg hbase)⟩
  case modred rd a c =>
    by_cases hsmall : regOperand s c < minMod
    · exact ⟨.fault .modulusSmall, nofun, fun _ => if_pos hsmall⟩
    · exact ⟨.register rd (regOperand s a % regOperand s c), nofun, fun _ => if_neg hsmall⟩
  case mul rd a b =>
    by_cases hvalue : regOperand s a * regOperand s b ≥ 2 ^ s.cfg.W
    · exact ⟨.fault .overflow, nofun, fun _ => if_pos hvalue⟩
    · exact ⟨.register rd (regOperand s a * regOperand s b), nofun, fun _ => if_neg hvalue⟩
  case mov rd a => exact ⟨.register rd (regOperand s a), nofun, fun _ => rfl⟩
  case ldi rd v => exact ⟨.register rd (immOperand v), nofun, fun _ => rfl⟩
  case cmp a b =>
    exact ⟨.flags (eqFlag (regOperand s a) (regOperand s b)) (ltFlag (regOperand s a) (regOperand s b)),
      fun _ _ _ => ⟨a, b, rfl⟩, fun _ => rfl⟩

/-! ## The digit buffer (10_state.md R39) -/

/-- `DEC` reads the digit buffer through its operand alone (40_codec.md R120). -/
theorem execDec_dbuf (rd : XReg) {s t : State} (m : Memory) (h : execDec rd s = .next t)
    (hd : digitsOperand { s with dbuf := m } = digitsOperand s) :
    execDec rd { s with dbuf := m } = .next { t with dbuf := m } := by
  unfold execDec at h ⊢
  rw [hd]
  split at h
  next hempty =>
    cases h
    exact if_pos hempty
  next hempty =>
  refine (if_neg hempty).trans ?_
  split at h
  next hlen =>
    cases h
    exact if_pos hlen
  next hlen =>
  refine (if_neg hlen).trans ?_
  split at h
  next hdigit =>
    cases h
    exact if_pos hdigit
  next hdigit =>
  refine (if_neg hdigit).trans ?_
  split at h
  next hvalue =>
    cases h
    exact if_pos hvalue
  next hvalue =>
    cases h
    exact if_neg hvalue

/-- Settles O33: no end of a command but an encoder's writes the buffer, and `DEC`'s operand lists the
entries below `DLEN` only. -/
theorem onlyEncodersWriteTheDigitBuffer : Obligations.OnlyEncodersWriteTheDigitBuffer := by
  refine ⟨fun i s t => exec_dbuf_dlen, fun s t rd m h hm => execDec_dbuf rd m h ?_⟩
  exact List.map_congr_left fun i hi => hm i (List.mem_range.1 hi)

/-! ## The flags (10_state.md R26) -/

/-- A command other than `CMP` does the same whatever the flags hold, and keeps them. -/
theorem exec_with_flags {i : Instr} {s t : State} (e l : Bool) (h : exec i s = .next t)
    (hi : ∀ a b, i ≠ .cmp a b) :
    exec i { s with eq := e, lt := l } = .next { t with eq := e, lt := l } := by
  obtain ⟨f, hflags, hf⟩ := exec_effect i s
  have ht : t = f.on s := Host.Outcome.next.inj (h.symm.trans (hf s))
  refine (hf { s with eq := e, lt := l }).trans ?_
  subst ht
  cases f with
  | fault | register | digits => rfl
  | flags eq lt =>
    obtain ⟨a, b, rfl⟩ := hflags eq lt rfl
    exact absurd rfl (hi a b)

theorem exec_flags {i : Instr} {s t : State} (h : exec i s = .next t) :
    (t.eq = s.eq ∧ t.lt = s.lt) ∨ (t.busy = false ∧ t.done = true ∧ ∃ a b, i = .cmp a b) := by
  have e := exec_ends i s
  rw [h] at e
  cases e with
  | fault | register | digits => exact .inl ⟨rfl, rfl⟩
  | flags a b hi => exact .inr ⟨rfl, rfl, a, b, hi⟩

theorem step_reset {s : State} {rest : List Event} (h : s.inputs = .reset :: rest) :
    step s = .next (resetEvent { s with inputs := rest }) := by
  unfold step nextEvent
  rw [h]
  rfl

/-- A step that is no reset and no successful `CMP` keeps the flags. -/
theorem step_flags {s t : State} (h : step s = .next t) :
    (t.eq = s.eq ∧ t.lt = s.lt) ∨ s.inputs.head? = some .reset ∨
      (s.busy = true ∧ t.busy = false ∧ t.done = true ∧ ∃ a b, decode s.cmd = .ok (.cmp a b)) := by
  have g := step_goes s
  rw [h] at g
  cases g with
  | read | refused | idle | illegal => exact .inl ⟨rfl, rfl⟩
  | write off size v rest tg =>
    obtain ⟨-, heq, hlt, -, -⟩ := writeTarget_frame { s with inputs := rest } v tg
    exact .inl ⟨heq, hlt⟩
  | reset rest hr => exact .inr (.inl (by simp [hr]))
  | completion rest _ hb i hd t ht =>
    obtain hkeep | ⟨hbusy, hdone, a, b, rfl⟩ := exec_flags ht
    · exact .inl hkeep
    · exact .inr (.inr ⟨hb, hbusy, hdone, a, b, hd⟩)

/-- Settles O36: a step changes the flags at a reset or a completed `CMP` alone, and no command's effect
depends on them. -/
theorem onlyCmpWritesTheFlags : Obligations.OnlyCmpWritesTheFlags := by
  refine ⟨fun s t h hne => ?_, fun s t hr h => ?_, fun i s t e l h => ⟨exec_with_flags e l h, ?_⟩⟩
  · obtain ⟨heq, hlt⟩ | hother := step_flags h
    · exact (hne.elim (· heq) (· hlt)).elim
    · exact hother
  · obtain ⟨rest, hrest⟩ := List.head?_eq_some_iff.1 hr
    rw [step_reset hrest] at h
    cases h
    exact ⟨rfl, rfl⟩
  · rintro ⟨a, b, rfl⟩
    exact h

/-! ## The host's own fields during a command (10_state.md R42) -/

/-- A state with the interrupt enables, the events to come and the record replaced: all that
transactions in phase `BUSY` reach. -/
def State.withHost (s : State) (ieDone ieErr : Bool) (inputs : List Event) (trace : List Obs) : State :=
  { s with ieDone := ieDone, ieErr := ieErr, inputs := inputs, trace := trace }

/-- A completion does the same whatever those fields hold, and keeps them. -/
theorem evaluate_withHost {s u : State} (d r : Bool) (ins : List Event) (tr : List Obs)
    (h : evaluate s = .next u) :
    evaluate (s.withHost d r ins tr) = .next (u.withHost d r ins tr) := by
  unfold evaluate at h ⊢
  have hcmd : (s.withHost d r ins tr).cmd = s.cmd := rfl
  rw [hcmd]
  cases hdec : decode s.cmd with
  | error e =>
    simp only [hdec, raise_eq, Host.Outcome.next.injEq] at h
    subst h
    rfl
  | ok i =>
    simp only [hdec] at h
    obtain ⟨f, -, hf⟩ := exec_effect i s
    have hu : u = f.on s := Host.Outcome.next.inj (h.symm.trans (hf s))
    subst hu
    refine (hf (s.withHost d r ins tr)).trans ?_
    cases f <;> rfl

/-- In phase `BUSY` a `STATUS` write finds nothing to clear. -/
theorem writeStatus_of_busy {s : State} (h : s.statusOk) (hb : s.busy = true) (v : Word) :
    writeStatus s v = s := by
  obtain ⟨hdone, herr, hcode⟩ := State.statusOk.of_busy h hb
  rw [writeStatus_eq]
  cases s
  simp_all

/-- An admitted write in phase `BUSY` reaches the interrupt enables at most (20_memory.md R71). -/
theorem writeTarget_of_busy {s : State} (h : s.statusOk) (hb : s.busy = true) {tg : Target}
    (ha : writeAdmitted s.phase tg = true) (v : Word) :
    ∃ d r, writeTarget s v tg = s.withHost d r s.inputs s.trace := by
  rw [s.phase_eq_busy_iff.2 hb] at ha
  cases tg with
  | id | cfg | cmd | dlen | dbufWord | xWord => simp [writeAdmitted] at ha
  | status => exact ⟨s.ieDone, s.ieErr, writeStatus_of_busy h hb v⟩
  | ctrl => exact ⟨v.getLsbD 0, v.getLsbD 1, rfl⟩

/-- An event that is a transaction of the host. -/
def Event.isTransaction (e : Event) : Prop :=
  (∃ off size, e = .read off size) ∨ ∃ off size v, e = .write off size v

theorem step_transaction_of_busy {s : State} {e : Event} {rest : List Event} (h : s.statusOk)
    (hb : s.busy = true) (hi : s.inputs = e :: rest) (he : e.isTransaction) :
    ∃ d r tr, step s = .next (s.withHost d r rest tr) := by
  obtain ⟨off, size, rfl⟩ | ⟨off, size, v, rfl⟩ := he
  · refine ⟨s.ieDone, s.ieErr, .response (busRead s off size).1 (busRead s off size).2 :: s.trace, ?_⟩
    unfold step nextEvent
    rw [hi]
    rfl
  · have hs : step s = event (.write off size v) { s with inputs := rest } := by
      unfold step nextEvent
      rw [hi]
    rw [hs]
    obtain hw | ⟨tg, -, ha, hw⟩ := busWrite_cases { s with inputs := rest } off size v
    · simp only [event, hw]
      exact ⟨s.ieDone, s.ieErr, _, rfl⟩
    · obtain ⟨d, r, hdr⟩ := writeTarget_of_busy (s := { s with inputs := rest }) h hb ha v
      simp only [event, hw, hdr]
      exact ⟨d, r, _, rfl⟩

theorem run_transactions_of_busy {s : State} {evs rest : List Event} (h : s.statusOk)
    (hb : s.busy = true) (hi : s.inputs = evs ++ rest) (he : ∀ e ∈ evs, e.isTransaction) :
    ∃ d r tr, Host.Core.run core evs.length s = .next (s.withHost d r rest tr) := by
  induction evs generalizing s with
  | nil => exact ⟨s.ieDone, s.ieErr, s.trace, by rw [List.nil_append] at hi; rw [← hi]; rfl⟩
  | cons e evs ih =>
    obtain ⟨d, r, tr, hs⟩ := step_transaction_of_busy h hb hi (he e List.mem_cons_self)
    obtain ⟨d', r', tr', hrun⟩ :=
      ih (s := s.withHost d r (evs ++ rest) tr) h hb rfl fun e' he' => he e' (List.mem_cons_of_mem e he')
    exact ⟨d', r', tr', (run_succ evs.length hs).trans hrun⟩

/-- Settles O59: transactions in phase `BUSY` reach fields that no completion reads or writes. -/
theorem outcomeIsThatOfTheStateAtIssue : Obligations.OutcomeIsThatOfTheStateAtIssue := by
  intro s evs rest h hb hi he
  obtain ⟨d, r, tr, hrun⟩ := run_transactions_of_busy h hb hi he
  refine ⟨_, hrun, rfl, hb, rfl, rfl, rfl, rfl, fun u hu => ?_⟩
  exact ⟨_, evaluate_withHost d r rest tr hu, rfl, rfl, rfl, rfl, rfl, rfl, rfl, rfl, rfl⟩

end Sys2Proof.Machine

/-! SUPPORT. Which steps change the phase, and how the engine's turn comes about (10_state.md R30, R41,
R42). -/

namespace Sys2Proof.Machine

/-! ## The engine's turn -/

theorem engineTurn_of_exec {s t : State} {i : Instr} (hb : s.busy = true) (hd : decode s.cmd = .ok i)
    (h : exec i s = .next t) : engineTurn s = .next (t.record (completionObs t)) := by
  simp only [engineTurn, evaluate, hb, if_true, hd, h]

theorem step_of_no_inputs {s : State} (h : s.inputs = []) : step s = engineTurn s := by
  unfold step nextEvent
  rw [h]

theorem step_of_engine {s : State} {rest : List Event} (h : s.inputs = .engine :: rest) :
    step s = engineTurn { s with inputs := rest } := by
  unfold step nextEvent
  rw [h]
  rfl

/-- Settles O6: the engine's turn comes when no event waits or its own event is first. -/
theorem stepRunsTheDecodedCommand : Obligations.StepRunsTheDecodedCommand := by
  refine fun s t i hb hd => ⟨fun hi h => ?_, fun rest hi h => ?_⟩
  · rw [step_of_no_inputs hi]
    exact engineTurn_of_exec hb hd h
  · rw [step_of_engine hi]
    exact engineTurn_of_exec (s := { s with inputs := rest }) hb hd h

theorem decode_of_decodeTableWord {nbits w : Nat} {i : Instr} (h : decodeTableWord nbits w = some i) :
    decode (tableWord nbits w) = .ok i := by
  unfold decodeTableWord at h
  split at h
  next hd => rw [hd, Option.some.inj h]
  next => cases h

/-- Settles O7: a placed word is in `CMD` in phase `BUSY`, the engine's event first. -/
theorem placedCommandRunsNext : Obligations.PlacedCommandRunsNext := by
  intro s t nbits w i hw h
  rw [step_of_engine (s := s.withFetchWord nbits w) rfl]
  exact engineTurn_of_exec rfl (decode_of_decodeTableWord hw) h

/-! ## Where `CMD` and `STATUS` stand -/

/-- Only a control or status register has the target of one, at its own offset. -/
theorem targetAt_control {c : Config} {off : Offset} {size : Nat} {tg : Target}
    (h : targetAt c off size = some tg) (hd : ∀ k, tg ≠ .dbufWord k) (hx : ∀ r j, tg ≠ .xWord r j) :
    size = 4 ∧ controlAt off.toNat = some tg := by
  unfold targetAt at h
  split at h
  next hs =>
    refine ⟨hs.1, ?_⟩
    obtain hc | hb | hr := mapAt_cases h
    · exact hc
    · obtain ⟨-, -, rfl⟩ := dbufAt_eq_some hb
      exact absurd rfl (hd _)
    · obtain ⟨-, -, -, rfl⟩ := xAt_eq_some hr
      exact absurd rfl (hx _ _)
  next => cases h

theorem offset_of_cmd {c : Config} {off : Offset} {size : Nat}
    (h : targetAt c off size = some .cmd) : off = 0x0008 ∧ size = 4 := by
  obtain ⟨hsize, hc⟩ := targetAt_control h nofun nofun
  exact ⟨BitVec.eq_of_toNat_eq (by simpa using controlAt_offset hc), hsize⟩

theorem offset_of_status {c : Config} {off : Offset} {size : Nat}
    (h : targetAt c off size = some .status) : off = 0x000C ∧ size = 4 := by
  obtain ⟨hsize, hc⟩ := targetAt_control h nofun nofun
  exact ⟨BitVec.eq_of_toNat_eq (by simpa using controlAt_offset hc), hsize⟩

/-! ## Changes of phase (10_state.md R41) -/

/-- A completion leaves phase `IDLE` with its results or phase `HALT` with a fault. -/
theorem exec_phase {i : Instr} {s t : State} (hs : s.statusOk) (hb : s.busy = true)
    (h : exec i s = .next t) :
    (t.phase = .idle ∧ t.done = true) ∨ (t.phase = .halt ∧ t.ecode ≠ 0) := by
  obtain ⟨hbusy, hdone, herr, -⟩ | ⟨c, rfl⟩ := exec_done_or_fault h
  · obtain ⟨-, herr', -⟩ := State.statusOk.of_busy hs hb
    exact .inl ⟨t.phase_eq_idle_iff.2 ⟨hbusy, herr.trans herr'⟩, hdone⟩
  · exact .inr ⟨(s.takeFault c).phase_eq_halt_iff.2 ⟨rfl, rfl⟩, c.code_ne_zero⟩

/-- A `STATUS` write changes the phase from `HALT` to `IDLE` alone, by its bit 2. -/
theorem writeStatus_phase {s : State} {v : Word} (h : (writeStatus s v).phase ≠ s.phase) :
    s.phase = .halt ∧ (writeStatus s v).phase = .idle ∧ v.getLsbD 2 = true := by
  rw [writeStatus_eq] at h ⊢
  revert h
  unfold State.phase
  cases s.busy <;> cases s.err <;> cases v.getLsbD 2 <;> simp

/-- An admitted write changes the phase by an issue or by clearing `ERR` alone. -/
theorem writeTarget_phase {s : State} {v : Word} {tg : Target} (ha : writeAdmitted s.phase tg = true)
    (h : (writeTarget s v tg).phase ≠ s.phase) :
    (tg = .cmd ∧ s.phase = .idle) ∨
      (tg = .status ∧ s.phase = .halt ∧ (writeTarget s v tg).phase = .idle ∧ v.getLsbD 2 = true) := by
  by_cases hcmd : tg = .cmd
  · subst hcmd
    exact .inl ⟨rfl, phase_of_cmd_admitted ha⟩
  by_cases hstatus : tg = .status
  · subst hstatus
    exact .inr ⟨rfl, writeStatus_phase h⟩
  exact absurd (State.phase_congr (writeTarget_busy s v tg hcmd).1
    (writeTarget_status s v tg hcmd hstatus).2.1) h

/-- The two schedules in which the engine moves. -/
theorem engine_moves {inputs rest : List Event}
    (h : inputs = rest ∧ rest = [] ∨ inputs = .engine :: rest) :
    inputs = [] ∨ inputs.head? = some .engine := by
  obtain ⟨rfl, rfl⟩ | rfl := h
  · exact .inl rfl
  · exact .inr rfl

/-- Settles O37: by the kinds of step, a read, a refused write and an idle turn keep the phase. -/
theorem noOtherPhaseTransition : Obligations.NoOtherPhaseTransition := by
  intro s t hs h hne
  have g := step_goes s
  rw [h] at g
  cases g with
  | read | refused | idle => exact absurd rfl hne
  | reset rest hr => exact .inl ⟨by simp [hr], rfl⟩
  | write off size v rest tg hw ht ha =>
    obtain ⟨rfl, hidle⟩ | ⟨rfl, hhalt, hidle, hv⟩ :=
      writeTarget_phase (s := { s with inputs := rest }) ha hne
    · obtain ⟨rfl, rfl⟩ := offset_of_cmd ht
      exact .inr (.inl ⟨hidle, rfl, v, by simp [hw], rfl⟩)
    · obtain ⟨rfl, rfl⟩ := offset_of_status ht
      exact .inr (.inr (.inr ⟨hhalt, hidle, v, by simp [hw], hv⟩))
  | illegal rest hm hb =>
    exact .inr (.inr (.inl ⟨s.phase_eq_busy_iff.2 hb, engine_moves hm,
      .inr ⟨rfl, FaultCode.code_ne_zero .illegalCmd⟩⟩))
  | completion rest hm hb i _ t ht =>
    exact .inr (.inr (.inl ⟨s.phase_eq_busy_iff.2 hb, engine_moves hm,
      exec_phase (s := { s with inputs := rest }) (t := t) hs hb ht⟩))

end Sys2Proof.Machine

/-! SUPPORT. The control and status registers on the bus: what an access at each offset does in every
phase (10_state.md R27 to R35, R45). -/

namespace Sys2Proof.Machine

/-! ## What stands at each offset (10_state.md R27) -/

theorem targetAt_0x0000 (c : Config) : targetAt c 0x0000 4 = some .id := rfl
theorem targetAt_0x0004 (c : Config) : targetAt c 0x0004 4 = some .cfg := rfl
theorem targetAt_0x0008 (c : Config) : targetAt c 0x0008 4 = some .cmd := rfl
theorem targetAt_0x000C (c : Config) : targetAt c 0x000C 4 = some .status := rfl
theorem targetAt_0x0010 (c : Config) : targetAt c 0x0010 4 = some .ctrl := rfl
theorem targetAt_0x0014 (c : Config) : targetAt c 0x0014 4 = some .dlen := rfl

theorem busRead_admitted {s : State} {off : Offset} {size : Nat} {tg : Target}
    (ht : targetAt s.cfg off size = some tg) (ha : readAdmitted s.phase tg = true) :
    busRead s off size = (readTarget s tg, false) := by
  simp only [busRead, ht, ha, if_true]

theorem busWrite_admitted {s : State} {off : Offset} {size : Nat} {tg : Target}
    (ht : targetAt s.cfg off size = some tg) (ha : writeAdmitted s.phase tg = true) (v : Word) :
    busWrite s off size v = (writeTarget s v tg, false) := by
  simp only [busWrite, ht, ha, if_true]

theorem busWrite_refused {s : State} {off : Offset} {size : Nat} {tg : Target}
    (ht : targetAt s.cfg off size = some tg) (ha : writeAdmitted s.phase tg = false) (v : Word) :
    busWrite s off size v = (s, true) := by
  simp only [busWrite, ht, ha, Bool.false_eq_true, if_false]

theorem busRead_id (s : State) : busRead s 0x0000 4 = (idWord, false) :=
  busRead_admitted (targetAt_0x0000 s.cfg) rfl

theorem busRead_cfg (s : State) : busRead s 0x0004 4 = (cfgWord s.cfg, false) :=
  busRead_admitted (targetAt_0x0004 s.cfg) rfl

theorem busRead_cmd (s : State) : busRead s 0x0008 4 = (s.cmd, false) :=
  busRead_admitted (targetAt_0x0008 s.cfg) rfl

theorem busRead_status (s : State) : busRead s 0x000C 4 = (statusWord s, false) :=
  busRead_admitted (targetAt_0x000C s.cfg) rfl

theorem busRead_ctrl (s : State) : busRead s 0x0010 4 = (controlWord s, false) :=
  busRead_admitted (targetAt_0x0010 s.cfg) rfl

theorem busRead_dlen {s : State} (h : s.phase ≠ .busy) : busRead s 0x0014 4 = (0#16 ++ s.dlen, false) :=
  busRead_admitted (targetAt_0x0014 s.cfg) (decide_eq_true h)

/-! ## The words they read as -/

theorem controlWord_toNat (s : State) :
    (controlWord s).toNat = (if s.ieDone then 1 else 0) + (if s.ieErr then 2 else 0) := by
  unfold controlWord
  cases s.ieDone <;> cases s.ieErr <;> rfl

theorem getLsbD_eq_of_div {n i : Nat} {w : BitVec n} {b : Bool} (h : w.toNat / 2 ^ i % 2 = b.toNat) :
    w.getLsbD i = b := by
  rw [BitVec.getLsbD, Nat.testBit_eq_decide_div_mod_eq, h]
  cases b <;> rfl

theorem extractLsb'_eq_of_div {n i k : Nat} {w : BitVec n} {f : BitVec k}
    (h : w.toNat / 2 ^ i % 2 ^ k = f.toNat) : w.extractLsb' i k = f :=
  BitVec.eq_of_toNat_eq (by rw [BitVec.extractLsb'_toNat, Nat.shiftRight_eq_div_pow, h])

theorem statusWord_toNat (s : State) :
    (statusWord s).toNat = s.busy.toNat + 2 * s.done.toNat + 4 * s.err.toNat + 16 * s.eq.toNat +
      32 * s.lt.toNat + 256 * s.ecode.toNat := by
  unfold statusWord bit
  simp only [toNat_concat, BitVec.toNat_ofBool, BitVec.toNat_ofNat]
  omega

theorem statusWord_resetWith (c : Config) : statusWord (State.resetWith c) = 0 :=
  BitVec.eq_of_toNat_eq (statusWord_toNat (State.resetWith c))

theorem controlWord_resetWith (c : Config) : controlWord (State.resetWith c) = 0 :=
  BitVec.eq_of_toNat_eq (controlWord_toNat (State.resetWith c))

theorem cfgWord_toNat {c : Config} (hc : c.legal) :
    (cfgWord c).toNat = c.W + 65536 * ((c.W + 6) / 7) := by
  obtain ⟨-, -, hW⟩ := hc
  unfold cfgWord Config.dmax
  simp only [toNat_concat, BitVec.toNat_ofNat]
  omega

/-! ## The registers -/

/-- Settles O44: the write is admitted in every phase, and `writeStatus_eq` gives its fields. -/
theorem statusWriteClearsWhatItNames : Obligations.StatusWriteClearsWhatItNames := by
  intro s v
  have hw : busWrite s 0x000C 4 v = (writeStatus s v, false) :=
    busWrite_admitted (targetAt_0x000C s.cfg) rfl v
  rw [hw, writeStatus_eq]
  refine ⟨rfl, fun hh hv => (State.phase_eq_idle_iff _).2 ⟨(s.phase_eq_halt_iff.1 hh).1, ?_⟩⟩
  simp [hv]

/-- Settles O45: both accesses are admitted in every phase, and the word read is the sum of its two bits. -/
theorem controlRegisterHoldsTheEnables : Obligations.ControlRegisterHoldsTheEnables := by
  refine ⟨fun s v => ⟨busWrite_admitted (targetAt_0x0010 s.cfg) rfl v, ?_, ?_⟩, fun c => ?_⟩
  · rw [busRead_ctrl]
  · rw [busRead_ctrl]
    exact controlWord_toNat s
  · rw [busRead_ctrl, controlWord_resetWith]

/-- Settles O46: both accesses are admitted outside phase `BUSY`, and the write takes the low 16 bits of
its data. -/
theorem lengthRegisterStoresAnyValue : Obligations.LengthRegisterStoresAnyValue := by
  intro s v h
  have hv : (v.extractLsb' 0 16).toNat = v.toNat % 65536 := by
    simp [BitVec.extractLsb'_toNat]
  have hr : busRead (writeTarget s v .dlen) 0x0014 4 = (0#16 ++ v.extractLsb' 0 16, false) :=
    busRead_dlen (s := writeTarget s v .dlen) h
  refine ⟨writeTarget s v .dlen,
    busWrite_admitted (targetAt_0x0014 s.cfg) (decide_eq_true h) v, hv, rfl, ?_, ?_⟩
  · rw [hr]
  · rw [hr, toNat_concat]
    simp

/-- Settles O47: the write is admitted in phase `IDLE` alone, the read in every phase. -/
theorem commandWriteIssuesOnlyWhenIdle : Obligations.CommandWriteIssuesOnlyWhenIdle :=
  fun s w => ⟨fun h => busWrite_admitted (targetAt_0x0008 s.cfg) (decide_eq_true h) w,
    fun h => busWrite_refused (targetAt_0x0008 s.cfg) (decide_eq_false h) w, busRead_cmd s⟩

/-- Settles O48: each field is read off the word as a sum of its fields. -/
theorem statusReadLayout : Obligations.StatusReadLayout := by
  intro s
  refine ⟨statusWord s, busRead_status s, ?_⟩
  have hn := statusWord_toNat s
  have hbusy := s.busy.toNat_lt
  have hdone := s.done.toNat_lt
  have herr := s.err.toNat_lt
  have heq := s.eq.toNat_lt
  have hlt := s.lt.toNat_lt
  refine ⟨?busy, ?done, ?err, ?bit3, ?eq, ?lt, ?bits6to7, ?ecode, ?bits12to31⟩
  case bits6to7 | ecode | bits12to31 =>
    apply extractLsb'_eq_of_div
    simp only [hn, BitVec.ofNat_eq_ofNat, BitVec.toNat_ofNat]
    omega
  all_goals
    apply getLsbD_eq_of_div
    simp only [hn, Bool.toNat_false]
    omega

/-- Settles O49: both offsets admit every read and no write, and an admitted width fits 16 bits. -/
theorem identityRegistersAreConstant : Obligations.IdentityRegistersAreConstant := by
  intro s v hc
  refine ⟨busRead_id s, busWrite_refused (targetAt_0x0000 s.cfg) rfl v, ?_, ?_,
    busWrite_refused (targetAt_0x0004 s.cfg) rfl v⟩
  · rw [busRead_cfg]
  · rw [busRead_cfg]
    exact cfgWord_toNat hc

/-- Settles O50: the output is computed from the four bits alone. -/
theorem interruptIsALevelOfTheState : Obligations.InterruptIsALevelOfTheState :=
  ⟨fun s => by simp [State.irq], fun _ => rfl⟩

/-- Settles O53: each register's word is read off the reset state. -/
theorem resetValuesOfTheSpec : Obligations.ResetValuesOfTheSpec := by
  intro c _
  have hdigit : ∀ i, (State.resetWith c).digit i = 0 := fun i => ite_self 0#8
  refine ⟨fun r => ?_, hdigit, rfl, rfl, rfl, rfl, rfl, rfl, rfl, rfl, rfl, rfl, rfl, rfl,
    statusWord_resetWith c ▸ busRead_status (State.resetWith c),
    controlWord_resetWith c ▸ busRead_ctrl (State.resetWith c),
    busRead_id (State.resetWith c), busRead_cfg (State.resetWith c)⟩
  cases r <;> rfl

end Sys2Proof.Machine

/-! SUPPORT. The host's port as a map of targets to offsets, and what an admitted access of an operand
word does (20_memory.md R61 to R63, R67 to R71, 10_state.md R23, R40). -/

namespace Sys2Proof.Machine

/-! ## Answers of the bus -/

/-- Settles O39: a refusal is the first of the two ways an access can go. -/
theorem refusedAccessChangesNothing : Obligations.RefusedAccessChangesNothing := by
  refine fun s off size v => ⟨fun h => ?_, fun h => ?_⟩
  · obtain hr | ⟨tg, -, -, hr⟩ := busRead_cases s off size <;> rw [hr] at h ⊢
    · rfl
    · cases h
  · obtain hw | ⟨tg, -, -, hw⟩ := busWrite_cases s off size v <;> rw [hw] at h ⊢
    cases h

theorem busRead_ok_iff (s : State) (off : Offset) (size : Nat) :
    (busRead s off size).2 = false ↔
      ∃ tg, targetAt s.cfg off size = some tg ∧ readAdmitted s.phase tg = true := by
  refine ⟨fun h => ?_, fun ⟨tg, ht, ha⟩ => by rw [busRead_admitted ht ha]⟩
  obtain hr | ⟨tg, ht, ha, -⟩ := busRead_cases s off size
  · rw [hr] at h
    cases h
  · exact ⟨tg, ht, ha⟩

theorem busWrite_ok_iff (s : State) (off : Offset) (size : Nat) (v : Word) :
    (busWrite s off size v).2 = false ↔
      ∃ tg, targetAt s.cfg off size = some tg ∧ writeAdmitted s.phase tg = true := by
  refine ⟨fun h => ?_, fun ⟨tg, ht, ha⟩ => by rw [busWrite_admitted ht ha]⟩
  obtain hw | ⟨tg, ht, ha, -⟩ := busWrite_cases s off size v
  · rw [hw] at h
    cases h
  · exact ⟨tg, ht, ha⟩

/-! ## The schedule passes through a transaction (notes/assumptions/2.md) -/

theorem State.setDigit_withInputs (s : State) (rest : List Event) (i : Nat) (v : Byte) :
    ({ s with inputs := rest } : State).setDigit i v = { s.setDigit i v with inputs := rest } := by
  unfold State.setDigit
  split <;> rfl

/-- An admitted write does the same whatever events are still to come, and keeps them. -/
theorem writeTarget_withInputs (s : State) (rest : List Event) (v : Word) (tg : Target) :
    writeTarget { s with inputs := rest } v tg = { writeTarget s v tg with inputs := rest } := by
  cases tg with
  | id | cfg | cmd | ctrl | dlen | xWord => rfl
  | status => simp only [writeTarget, writeStatus_eq]
  | dbufWord k => simp only [writeTarget, State.setDigit_withInputs]

/-- A write, admitted or refused, does the same whatever events are still to come, and keeps them. -/
theorem busWrite_withInputs (s : State) (rest : List Event) (off : Offset) (size : Nat) (v : Word) :
    busWrite { s with inputs := rest } off size v =
      ({ (busWrite s off size v).1 with inputs := rest }, (busWrite s off size v).2) := by
  obtain hw | ⟨tg, ht, ha, hw⟩ := busWrite_cases s off size v
  · obtain hw' | ⟨tg, ht, ha, -⟩ := busWrite_cases { s with inputs := rest } off size v
    · rw [hw, hw']
    · rw [busWrite_admitted (s := s) ht ha] at hw
      exact nomatch congrArg Prod.snd hw
  · rw [hw, busWrite_admitted (s := { s with inputs := rest }) ht ha, writeTarget_withInputs]

/-- Only a step extends the record, no write does. -/
theorem busWrite_trace (s : State) (off : Offset) (size : Nat) (v : Word) :
    (busWrite s off size v).1.trace = s.trace := by
  obtain hw | ⟨tg, -, -, hw⟩ := busWrite_cases s off size v <;> rw [hw]
  obtain ⟨-, -, -, -, htrace⟩ := writeTarget_frame s v tg
  exact htrace

theorem step_of_event {s : State} {e : Event} {rest : List Event} (h : s.inputs = e :: rest) :
    step s = event e { s with inputs := rest } := by
  unfold step nextEvent
  rw [h]

/-- Settles O41: the step is the event's, and the bus does not look at the events to come. -/
theorem transactionsStepThroughTheBus : Obligations.TransactionsStepThroughTheBus := by
  refine fun s off size rest => ⟨fun h => ?_, fun v h => ?_⟩
  · rw [step_of_event h]
    rfl
  · rw [step_of_event h]
    simp only [event, busWrite_withInputs, State.record, busWrite_trace]
    rfl

/-! ## The address map as targets and their offsets (20_memory.md R61) -/

/-- Where a target stands in the aperture (10_state.md R27, 20_memory.md R62, R63). -/
def Target.offset : Target → Nat
  | .id => 0x0000
  | .cfg => 0x0004
  | .cmd => 0x0008
  | .status => 0x000C
  | .ctrl => 0x0010
  | .dlen => 0x0014
  | .dbufWord k => 0x0400 + 4 * k
  | .xWord r j => 0x1000 + 0x200 * r.num + 4 * j

/-- The targets an ME128 of parameter `c` has: `NDW` words of DBUF, `NW` words of each register. -/
def Target.present (c : Config) : Target → Prop
  | .dbufWord k => k < c.ndw
  | .xWord _ j => j < c.nw
  | _ => True

theorem Target.offset_mod_four (tg : Target) : tg.offset % 4 = 0 := by
  cases tg <;> simp only [Target.offset] <;> omega

/-- Every target of an admitted width stands inside the 8 KiB aperture (20_memory.md R60). -/
theorem Target.offset_lt {c : Config} (hc : c.legal) {tg : Target} (h : tg.present c) :
    tg.offset < 2 ^ 13 := by
  obtain ⟨hnw, -, hndw, -⟩ := legal_bounds hc
  cases tg with
  | id | cfg | cmd | status | ctrl | dlen => decide
  | dbufWord k =>
    have hk : k < c.ndw := h
    simp only [Target.offset]
    omega
  | xWord r j =>
    have hj : j < c.nw := h
    have hr := XReg.num_lt r
    simp only [Target.offset]
    omega

/-- The map has each present target at its offset and nothing else at a multiple of 4. -/
theorem mapAt_eq_some_iff {c : Config} (hc : c.legal) {a : Nat} (ha : a % 4 = 0) (tg : Target) :
    mapAt c a = some tg ↔ tg.present c ∧ a = tg.offset := by
  obtain ⟨hnw, -, hndw, -⟩ := legal_bounds hc
  refine ⟨fun h => ?_, fun ⟨hp, hoff⟩ => hoff ▸ ?_⟩
  · obtain hctl | hd | hx := mapAt_cases h
    · have hmem := controlAt_offset hctl
      simp only [List.mem_cons, Prod.mk.injEq, List.not_mem_nil, or_false] at hmem
      rcases hmem with ⟨rfl, rfl⟩ | ⟨rfl, rfl⟩ | ⟨rfl, rfl⟩ | ⟨rfl, rfl⟩ | ⟨rfl, rfl⟩ | ⟨rfl, rfl⟩ <;>
        exact ⟨trivial, rfl⟩
    · obtain ⟨hlo, hk, rfl⟩ := dbufAt_eq_some hd
      refine ⟨hk, ?_⟩
      simp only [Target.offset]
      omega
    · obtain ⟨hlo, hhi, hj, rfl⟩ := xAt_eq_some hx
      refine ⟨hj, ?_⟩
      have hnum : (XReg.ofNum ((a - 0x1000) / 0x200)).num = (a - 0x1000) / 0x200 :=
        XReg.num_ofNum (by omega)
      simp only [Target.offset, hnum]
      omega
  · cases tg with
    | id | cfg | cmd | status | ctrl | dlen => rfl
    | dbufWord k => exact mapAt_dbufWord c k hp
    | xWord r j => exact mapAt_xWord c r j hp hnw hndw

/-- An access has a target exactly when it is 4 bytes wide at that target's offset (20_memory.md R67). -/
theorem targetAt_eq_some_iff {c : Config} (hc : c.legal) (off : Offset) (size : Nat) (tg : Target) :
    targetAt c off size = some tg ↔ size = 4 ∧ tg.present c ∧ off.toNat = tg.offset := by
  unfold targetAt
  split
  next h => simp only [mapAt_eq_some_iff hc h.2, h.1, true_and]
  next h =>
    refine ⟨nofun, fun ⟨hsize, _, hoff⟩ => absurd ⟨hsize, ?_⟩ h⟩
    rw [hoff]
    exact tg.offset_mod_four

/-- A 4-byte access at the offset of a present target has that target. -/
theorem targetAt_offset {c : Config} (hc : c.legal) {tg : Target} (h : tg.present c) :
    targetAt c (BitVec.ofNat 13 tg.offset) 4 = some tg :=
  (targetAt_eq_some_iff hc _ 4 tg).2
    ⟨rfl, h, (BitVec.toNat_ofNat tg.offset 13).trans (Nat.mod_eq_of_lt (Target.offset_lt hc h))⟩

/-! ## Which accesses are admitted (20_memory.md R71) -/

/-- The offsets of `DLEN`, of the DBUF words and of the register words: what a running command reads,
and so what the host reaches outside phase `BUSY` alone (20_memory.md R71). -/
def OperandOffset (c : Config) (a : Nat) : Prop :=
  a = 0x0014 ∨ (∃ k < c.ndw, a = 0x0400 + 4 * k) ∨
    ∃ i < 4, ∃ j < c.nw, a = 0x1000 + 0x200 * i + 4 * j

theorem OperandOffset.ge {c : Config} {a : Nat} (h : OperandOffset c a) : 0x0014 ≤ a := by
  obtain rfl | ⟨k, -, rfl⟩ | ⟨i, -, j, -, rfl⟩ := h <;> omega

/-- The offsets at which something stands: the five registers up to `CTRL`, and the operands. -/
theorem exists_present_iff (c : Config) (a : Nat) :
    (∃ tg : Target, tg.present c ∧ a = tg.offset) ↔
      a % 4 = 0 ∧ (a ≤ 0x0010 ∨ OperandOffset c a) := by
  refine ⟨fun ⟨tg, hp, ha⟩ => ⟨ha ▸ tg.offset_mod_four, ?_⟩, fun ⟨h4, h⟩ => ?_⟩
  · subst ha
    cases tg with
    | id | cfg | cmd | status | ctrl => exact .inl (by decide)
    | dlen => exact .inr (.inl rfl)
    | dbufWord k => exact .inr (.inr (.inl ⟨k, hp, rfl⟩))
    | xWord r j => exact .inr (.inr (.inr ⟨r.num, XReg.num_lt r, j, hp, rfl⟩))
  · obtain hlow | rfl | ⟨k, hk, rfl⟩ | ⟨i, hi, j, hj, rfl⟩ := h
    · obtain rfl | rfl | rfl | rfl | rfl :
          a = 0x0000 ∨ a = 0x0004 ∨ a = 0x0008 ∨ a = 0x000C ∨ a = 0x0010 := by omega
      exacts [⟨.id, trivial, rfl⟩, ⟨.cfg, trivial, rfl⟩, ⟨.cmd, trivial, rfl⟩,
        ⟨.status, trivial, rfl⟩, ⟨.ctrl, trivial, rfl⟩]
    · exact ⟨.dlen, trivial, rfl⟩
    · exact ⟨.dbufWord k, hk, rfl⟩
    · exact ⟨.xWord (XReg.ofNum i) j, hj, by rw [Target.offset, XReg.num_ofNum hi]⟩

/-- The phase rule of reads, by the target's offset. -/
theorem readAdmitted_iff (p : Phase) (tg : Target) :
    readAdmitted p tg = true ↔ tg.offset ≤ 0x0010 ∨ p ≠ .busy := by
  cases tg with
  | id | cfg | cmd | status | ctrl => simp [readAdmitted, Target.offset]
  | dlen => simp [readAdmitted, Target.offset]
  | dbufWord | xWord =>
    simp only [readAdmitted, Target.offset, decide_eq_true_eq]
    exact ⟨.inr, fun h => h.resolve_left (by omega)⟩

/-- The phase rule of writes, by the target's offset. -/
theorem writeAdmitted_iff (p : Phase) (tg : Target) :
    writeAdmitted p tg = true ↔ tg.offset = 0x000C ∨ tg.offset = 0x0010 ∨
      (tg.offset = 0x0008 ∧ p = .idle) ∨ (p ≠ .busy ∧ 0x0014 ≤ tg.offset) := by
  cases tg with
  | id | cfg | cmd | status | ctrl | dlen => simp [writeAdmitted, Target.offset]
  | dbufWord | xWord =>
    simp only [writeAdmitted, Target.offset, decide_eq_true_eq]
    refine ⟨fun h => .inr (.inr (.inr ⟨h, by omega⟩)), fun h => ?_⟩
    obtain h | h | ⟨h, -⟩ | ⟨h, -⟩ := h
    · omega
    · omega
    · omega
    · exact h

/-- Where a rule of targets is a rule of their offsets, what it admits is told by the offset alone. -/
theorem exists_target_iff {c : Config} (hc : c.legal) (off : Offset) (size : Nat)
    {A : Target → Bool} {R : Nat → Prop} (hA : ∀ tg, A tg = true ↔ R tg.offset) :
    (∃ tg, targetAt c off size = some tg ∧ A tg = true) ↔
      size = 4 ∧ off.toNat % 4 = 0 ∧
        (off.toNat ≤ 0x0010 ∨ OperandOffset c off.toNat) ∧ R off.toNat := by
  simp only [targetAt_eq_some_iff hc, hA]
  constructor
  · rintro ⟨tg, ⟨hsize, hp, hoff⟩, hR⟩
    obtain ⟨h4, hstands⟩ := (exists_present_iff c off.toNat).1 ⟨tg, hp, hoff⟩
    exact ⟨hsize, h4, hstands, hoff ▸ hR⟩
  · rintro ⟨hsize, h4, hstands, hR⟩
    obtain ⟨tg, hp, hoff⟩ := (exists_present_iff c off.toNat).2 ⟨h4, hstands⟩
    exact ⟨tg, ⟨hsize, hp, hoff⟩, hoff ▸ hR⟩

/-- Settles O40: the map and the phase rules by offset, and no operand stands below `0x0014`. -/
theorem accessesAdmittedByMapAndPhase : Obligations.AccessesAdmittedByMapAndPhase := by
  intro s off size v hc
  rw [busRead_ok_iff, busWrite_ok_iff,
    exists_target_iff hc off size (R := fun a => a ≤ 0x0010 ∨ s.phase ≠ .busy)
      (readAdmitted_iff s.phase),
    exists_target_iff hc off size (R := fun a => a = 0x000C ∨ a = 0x0010 ∨
      (a = 0x0008 ∧ s.phase = .idle) ∨ (s.phase ≠ .busy ∧ 0x0014 ≤ a)) (writeAdmitted_iff s.phase)]
  change (_ ↔ _ ∧ _ ∧ (_ ∨ _ ∧ OperandOffset s.cfg off.toNat)) ∧
    (_ ↔ _ ∧ _ ∧ (_ ∨ _ ∨ _ ∨ _ ∧ OperandOffset s.cfg off.toNat))
  have hge := @OperandOffset.ge s.cfg off.toNat
  refine ⟨and_congr_right fun _ => and_congr_right fun _ => or_and_left.symm.trans
    (or_congr_right and_comm), and_congr_right fun _ => and_congr_right fun _ => ⟨?_, ?_⟩⟩
  · rintro ⟨hstands, hw⟩
    refine hw.imp_right (Or.imp_right (Or.imp_right fun ⟨hb, hlo⟩ => ⟨hb, ?_⟩))
    exact hstands.resolve_left (by omega)
  · rintro (h | h | ⟨h, hi⟩ | ⟨hb, ho⟩)
    · exact ⟨.inl (by omega), .inl h⟩
    · exact ⟨.inl (by omega), .inr (.inl h)⟩
    · exact ⟨.inl (by omega), .inr (.inr (.inl ⟨h, hi⟩))⟩
    · exact ⟨.inr ho, .inr (.inr (.inr ⟨hb, hge ho⟩))⟩

/-! ## Words of an integer (20_memory.md R62) -/

theorem getLsbD_wordAt (v j i : Nat) :
    (wordAt v j).getLsbD i = (decide (i < 32) && v.testBit (32 * j + i)) := by
  rw [wordAt, BitVec.getLsbD_ofNat, Nat.testBit_div_two_pow, Nat.add_comm]

theorem testBit_withWord (v j : Nat) (w : Word) (b : Nat) :
    (withWord v j w).testBit b =
      if 32 * j ≤ b ∧ b < 32 * j + 32 then w.getLsbD (b - 32 * j) else v.testBit b := by
  have hlow : v % 2 ^ (32 * j) < 2 ^ (32 * j) := Nat.mod_lt _ (by positivity)
  have hsplit : withWord v j w = 2 ^ (32 * j) *
      (2 ^ 32 * (v / 2 ^ (32 * (j + 1))) + w.toNat) + v % 2 ^ (32 * j) := by
    rw [withWord, Nat.mul_succ, pow_add]
    ring
  rw [hsplit, Nat.testBit_two_pow_mul_add _ hlow, Nat.testBit_two_pow_mul_add _ w.isLt]
  by_cases hb : b < 32 * j
  · rw [if_pos hb, if_neg (by omega), Nat.testBit_mod_two_pow, decide_eq_true hb, Bool.true_and]
  by_cases hb' : b - 32 * j < 32
  · rw [if_neg hb, if_pos hb', if_pos (by omega), BitVec.getLsbD]
  · rw [if_neg hb, if_neg hb', if_neg (by omega), Nat.testBit_div_two_pow,
      show b - 32 * j - 32 + 32 * (j + 1) = b by omega]

/-- A word read after a word is replaced, the same one or another. -/
theorem wordAt_withWord (v j k : Nat) (w : Word) :
    wordAt (withWord v j w) k = if k = j then w else wordAt v k := by
  refine BitVec.eq_of_getLsbD_eq fun i hi => ?_
  rw [getLsbD_wordAt, testBit_withWord, decide_eq_true hi, Bool.true_and]
  by_cases hk : k = j
  · subst hk
    rw [if_pos rfl, if_pos (by omega), Nat.add_sub_cancel_left]
  · rw [if_neg hk, if_neg (by omega), getLsbD_wordAt, decide_eq_true hi, Bool.true_and]

/-! ## Words of the registers on the bus (20_memory.md R62) -/

theorem targetAt_xWord {c : Config} (hc : c.legal) (r : XReg) {j : Nat} (hj : j < c.nw) :
    targetAt c (BitVec.ofNat 13 (0x1000 + 0x200 * r.num + 4 * j)) 4 = some (.xWord r j) :=
  targetAt_offset hc (tg := .xWord r j) hj

theorem busRead_xWord {s : State} (hc : s.cfg.legal) (hb : s.phase ≠ .busy) (r : XReg) {j : Nat}
    (hj : j < s.cfg.nw) : busRead s (BitVec.ofNat 13 (0x1000 + 0x200 * r.num + 4 * j)) 4 =
      (wordAt (s.getX r) j, false) :=
  busRead_admitted (targetAt_xWord hc r hj) (decide_eq_true hb)

theorem busWrite_xWord {s : State} (hc : s.cfg.legal) (hb : s.phase ≠ .busy) (r : XReg) {j : Nat}
    (hj : j < s.cfg.nw) (v : Word) :
    busWrite s (BitVec.ofNat 13 (0x1000 + 0x200 * r.num + 4 * j)) 4 v =
      (s.setX r (withWord (s.getX r) j v), false) :=
  busWrite_admitted (targetAt_xWord hc r hj) (decide_eq_true hb) v

/-- Word `k` of a register after word `j` of one is written. -/
theorem wordAt_getX_setX_withWord (s : State) (r q : XReg) (j k : Nat) (v : Word) :
    wordAt ((s.setX r (withWord (s.getX r) j v)).getX q) k =
      if q = r ∧ k = j then v else wordAt (s.getX q) k := by
  rw [State.getX_setX]
  by_cases hq : q = r
  · subst hq
    simp only [if_true, true_and, wordAt_withWord]
  · simp only [hq, if_false, false_and]

/-- Settles O42: the write is that of `withWord`, read back by its words and its bits. -/
theorem registerWordWriteReadsBack : Obligations.RegisterWordWriteReadsBack := by
  intro s r j v hc hb hj
  have hread := fun q k =>
    busRead_xWord (s := s.setX r (withWord (s.getX r) j v)) hc hb q (j := k)
  refine ⟨_, busWrite_xWord hc hb r hj v, ?_, fun q k hk hne => ?_, fun q hq => ?_, fun b => ?_, rfl⟩
  · rw [hread r j hj, wordAt_getX_setX_withWord, if_pos ⟨rfl, rfl⟩]
  · have hword : ¬ (q = r ∧ k = j) := fun ⟨hq, hk⟩ => hne.elim (· hq) (· hk)
    rw [hread q k hk, wordAt_getX_setX_withWord, if_neg hword, busRead_xWord hc hb q hk]
  · rw [State.getX_setX, if_neg hq]
  · rw [State.getX_setX, if_pos rfl, testBit_withWord]

/-! ## Words of the digit buffer (20_memory.md R63) -/

/-- An entry that does not exist reads 0 (10_state.md R40). -/
theorem State.digit_of_dmax_le {s : State} {i : Nat} (h : s.cfg.dmax ≤ i) : s.digit i = 0 :=
  if_neg (not_lt.2 h)

/-- What a write of DBUF word `k` leaves: byte `i - 4k` of the data in each of its entries that exist. -/
theorem digit_writeTarget_dbufWord (s : State) (k i : Nat) (v : Word) :
    (writeTarget s v (.dbufWord k)).digit i =
      if 4 * k ≤ i ∧ i < 4 * k + 4 ∧ i < s.cfg.dmax then v.extractLsb' (8 * (i - 4 * k)) 8
      else s.digit i := by
  simp only [writeTarget, State.digit_setDigit, State.setDigit_cfg]
  by_cases hlane : 4 * k ≤ i ∧ i < 4 * k + 4
  · obtain ⟨l, hl, rfl⟩ : ∃ l < 4, i = 4 * k + l := ⟨i - 4 * k, by omega, by omega⟩
    interval_cases l <;> simp
  · rw [if_neg (by omega), if_neg (by omega), if_neg (by omega), if_neg (by omega), if_neg (by omega)]

/-- Settles O43: the write is four writes of entries, and the read takes the same four. -/
theorem digitWordWriteSetsFourEntries : Obligations.DigitWordWriteSetsFourEntries := by
  intro s k v hc hb hk
  have ht : targetAt s.cfg (BitVec.ofNat 13 (0x0400 + 4 * k)) 4 = some (.dbufWord k) :=
    targetAt_offset hc (tg := .dbufWord k) hk
  have ha : decide (s.phase ≠ .busy) = true := decide_eq_true hb
  have hdigit := fun i => digit_writeTarget_dbufWord s k i v
  have hw := busWrite_admitted (s := s) ht ha v
  obtain ⟨m, hm, -⟩ := writeTarget_dbufWord s v k
  rw [hm] at hdigit hw
  exact ⟨{ s with dbuf := m }, hw, hdigit, busRead_admitted (s := { s with dbuf := m }) ht ha,
    fun i hi => State.digit_of_dmax_le hi, rfl⟩

end Sys2Proof.Machine

/-! SUPPORT. Decoding and encoding are inverse to each other, and the columns `match` and `mask` say
which words decode (30_encoding.md R91 to R100). -/

namespace Sys2Proof

/-! ## Every word is its fields (30_encoding.md R91, R92) -/

/-- The word of given fields. Its upper 16 bits are `zero`, `rs3` and `rs2`, or the immediate. -/
def Fields.word (f : Fields) : Word := f.zero ++ f.rs3 ++ f.rs2 ++ f.rs1 ++ f.rd ++ f.op

theorem imm16_fieldsOf (w : Word) :
    (fieldsOf w).imm16 = (fieldsOf w).zero ++ (fieldsOf w).rs3 ++ (fieldsOf w).rs2 := by
  simp only [fieldsOf, BitVec.extractLsb'_append_extractLsb'_eq_extractLsb']

theorem word_fieldsOf (w : Word) : (fieldsOf w).word = w := by
  simp only [fieldsOf, Fields.word, BitVec.extractLsb'_append_extractLsb'_eq_extractLsb',
    BitVec.extractLsb'_eq_self]

theorem append_eq_append_iff {m n : Nat} {x x' : BitVec m} {y y' : BitVec n} :
    x ++ y = x' ++ y' ↔ x = x' ∧ y = y' := by
  refine ⟨fun h => ⟨?_, ?_⟩, fun ⟨hx, hy⟩ => hx ▸ hy ▸ rfl⟩
  · simpa only [BitVec.extractLsb'_append_eq_left] using congrArg (·.extractLsb' n m) h
  · simpa only [BitVec.extractLsb'_append_eq_right] using congrArg (·.extractLsb' 0 n) h

/-! ## The decoder, by its two parts -/

theorem decode_eq_ok_iff {w : Word} {i : Instr} :
    decode w = .ok i ↔ (fieldsOf w).problem = none ∧ commandOf (fieldsOf w) = .ok i := by
  unfold decode
  cases (fieldsOf w).problem <;> simp

theorem Fields.problem_eq_none_iff {f : Fields} :
    f.problem = none ↔ ∃ l, layoutOf f.op = some l ∧ l.problem f = none := by
  unfold Fields.problem
  cases layoutOf f.op <;> simp

theorem Layout.problem_eq_none_iff {l : Layout} {f : Fields} :
    l.problem f = none ↔
      l.rd.problem .rd f.rd.toNat = none ∧ l.rs1.problem .rs1 f.rs1.toNat = none ∧
      l.rs2.problem .rs2 f.rs2.toNat = none ∧ l.rs3.problem .rs3 f.rs3.toNat = none ∧
      l.zero.problem .zero f.zero.toNat = none := by
  simp only [Layout.problem, Option.or_eq_none_iff]

/-! ## Encoding then decoding -/

/-- The word of every command passes the checks of 30_encoding.md R93 and R94. -/
theorem problem_fieldsOf_encode (i : Instr) : (fieldsOf (encode i)).problem = none := by
  refine Option.isNone_iff_eq_none.1 ?_
  cases i with
  | dec rd => exact Laws.EncodesWellFormed.dec rd
  | enc a => exact Laws.EncodesWellFormed.enc a
  | encw a v => exact Laws.EncodesWellFormed.encw a v
  | blklen rd a => exact Laws.EncodesWellFormed.blklen rd a
  | modexp rd a b c => exact Laws.EncodesWellFormed.modexp rd a b c
  | modred rd a c => exact Laws.EncodesWellFormed.modred rd a c
  | mul rd a b => exact Laws.EncodesWellFormed.mul rd a b
  | mov rd a => exact Laws.EncodesWellFormed.mov rd a
  | ldi rd v => exact Laws.EncodesWellFormed.ldi rd v
  | cmp a b => exact Laws.EncodesWellFormed.cmp a b

theorem commandOf_fieldsOf_encode (i : Instr) : commandOf (fieldsOf (encode i)) = .ok i := by
  cases i <;>
    simp only [encode, fieldsOf_wordR, fieldsOf_wordI, commandOf, XReg.field_toNat, XReg.ofNum_num]

theorem decode_encode (i : Instr) : decode (encode i) = .ok i :=
  decode_eq_ok_iff.2 ⟨problem_fieldsOf_encode i, commandOf_fieldsOf_encode i⟩

/-- Settles O1: the word of a command passes the checks, and its fields are those of the command. -/
theorem decodeOfEncodeIsTheCommand : Obligations.DecodeOfEncodeIsTheCommand :=
  decode_encode

/-- Settles O5: each of the words is the encoding of its command. -/
theorem wordsOfTheSpecDecode : Obligations.WordsOfTheSpecDecode :=
  ⟨decode_encode (.dec .x3), decode_encode (.enc .x1), decode_encode (.encw .x3 65535#16),
    decode_encode (.blklen .x1 .x3), decode_encode (.modexp .x2 .x0 .x1 .x3),
    decode_encode (.modred .x1 .x0 .x3), decode_encode (.mul .x3 .x0 .x1),
    decode_encode (.mov .x1 .x2), decode_encode (.ldi .x3 1357#16), decode_encode (.cmp .x2 .x0)⟩

/-- Settles O4: the words of both formats are sums, and a register field holds the register's number. -/
theorem encodedWordIsTheSum : Obligations.EncodedWordIsTheSum := by
  intro rd a b c v
  simp [encode, toNat_wordR, toNat_wordI]

/-! ## Decoding then encoding (30_encoding.md R94) -/

/-- What an encoder writes into a field of value `v` after reading it under its use. -/
def Use.written {n : Nat} (u : Use) (v : BitVec n) : BitVec n :=
  match u with
  | .reg   => BitVec.ofNat n (XReg.ofNum v.toNat).num
  | .blank => 0
  | .imm   => v

/-- A field that passes its check is written back as it was read. -/
theorem Use.written_eq {n : Nat} {u : Use} {f : Field} {v : BitVec n}
    (h : u.problem f v.toNat = none) : u.written v = v := by
  cases u with
  | reg =>
    have hv : v.toNat < 4 := by simpa [Use.problem] using h
    simp only [Use.written, XReg.num_ofNum hv, BitVec.ofNat_toNat, BitVec.setWidth_eq]
  | blank =>
    have hv : v.toNat = 0 := by simpa [Use.problem] using h
    exact (BitVec.eq_of_toNat_eq hv).symm
  | imm => rfl

/-- The fields a layout's encoder writes back. -/
def Layout.written (l : Layout) (f : Fields) : Fields :=
  { f with
    rd := l.rd.written f.rd, rs1 := l.rs1.written f.rs1, rs2 := l.rs2.written f.rs2,
    rs3 := l.rs3.written f.rs3, zero := l.zero.written f.zero }

theorem Layout.written_eq {l : Layout} {f : Fields} (h : l.problem f = none) : l.written f = f := by
  obtain ⟨hrd, hrs1, hrs2, hrs3, hzero⟩ := Layout.problem_eq_none_iff.1 h
  simp only [Layout.written, Use.written_eq hrd, Use.written_eq hrs1, Use.written_eq hrs2,
    Use.written_eq hrs3, Use.written_eq hzero]

/-- The command read from fields is encoded field by field, each as its use says. -/
theorem encode_commandOf {f : Fields} {i : Instr} {l : Layout} (h : commandOf f = .ok i)
    (hl : layoutOf f.op = some l) (himm : f.imm16 = f.zero ++ f.rs3 ++ f.rs2) :
    encode i = (l.written f).word := by
  obtain ⟨op, rd, rs1, rs2, rs3, zero, imm16⟩ := f
  dsimp only at himm
  subst himm
  unfold commandOf at h
  split at h <;> cases h
  all_goals
    rename_i hop
    cases hop
    cases hl
    rfl

theorem encode_of_decode {w : Word} {i : Instr} (h : decode w = .ok i) : encode i = w := by
  obtain ⟨hp, hc⟩ := decode_eq_ok_iff.1 h
  obtain ⟨l, hl, hfit⟩ := Fields.problem_eq_none_iff.1 hp
  calc encode i = (l.written (fieldsOf w)).word := encode_commandOf hc hl (imm16_fieldsOf w)
    _ = (fieldsOf w).word := by rw [Layout.written_eq hfit]
    _ = w := word_fieldsOf w

/-- Settles O2: fields that pass their checks are written back as they were read, and they are all of
the word. -/
theorem encodeOfDecodeIsTheWord : Obligations.EncodeOfDecodeIsTheWord :=
  fun _ _ => encode_of_decode

/-! ## The columns `match` and `mask` (30_encoding.md R96) -/

/-- The bits of a field that its use fixes, at 0 (30_encoding.md R93, R94). -/
def Use.mask (u : Use) (n : Nat) : BitVec n :=
  match u with
  | .reg   => BitVec.allOnes n <<< 2
  | .blank => BitVec.allOnes n
  | .imm   => 0

theorem and_allOnes_shiftLeft_eq_zero_iff {n : Nat} (v : BitVec n) (k : Nat) :
    v &&& BitVec.allOnes n <<< k = 0 ↔ v.toNat < 2 ^ k := by
  constructor
  · intro h
    refine Nat.lt_pow_two_of_testBit _ fun i hi => ?_
    have hbit := congrArg (·.getLsbD i) h
    by_cases hn : i < n
    · simpa [BitVec.getLsbD, hn, not_lt.2 hi, show i - k < n by omega] using hbit
    · exact BitVec.getLsbD_of_ge v i (not_lt.1 hn)
  · intro h
    refine BitVec.eq_of_getLsbD_eq fun i hi => ?_
    by_cases hk : i < k
    · simp [hk]
    · have hbit : v.getLsbD i = false :=
        Nat.testBit_lt_two_pow (h.trans_le (Nat.pow_le_pow_right two_pos (not_lt.1 hk)))
      simp [hbit]

theorem Use.problem_eq_none_iff {n : Nat} (u : Use) (f : Field) (v : BitVec n) :
    u.problem f v.toNat = none ↔ v &&& u.mask n = 0 := by
  cases u with
  | reg => simpa [Use.problem, Use.mask] using (and_allOnes_shiftLeft_eq_zero_iff v 2).symm
  | blank => simp [Use.problem, Use.mask, BitVec.toNat_eq]
  | imm => simp [Use.problem, Use.mask]

/-- The column `mask` of a layout. -/
def Layout.mask (l : Layout) : Word :=
  l.zero.mask 8 ++ l.rs3.mask 4 ++ l.rs2.mask 4 ++ l.rs1.mask 4 ++ l.rd.mask 4 ++ BitVec.allOnes 8

/-- A word has an opcode and passes the checks of a layout exactly where it fits the columns. -/
theorem fits_mask_iff (w : Word) (op : BitVec 8) (l : Layout) :
    w &&& l.mask = wordR op 0 0 0 0 ↔ (fieldsOf w).op = op ∧ l.problem (fieldsOf w) = none := by
  conv_lhs => rw [← word_fieldsOf w]
  generalize fieldsOf w = f
  change (f.zero ++ f.rs3 ++ f.rs2 ++ f.rs1 ++ f.rd ++ f.op) &&&
    (l.zero.mask 8 ++ l.rs3.mask 4 ++ l.rs2.mask 4 ++ l.rs1.mask 4 ++ l.rd.mask 4 ++
      BitVec.allOnes 8) =
      0#8 ++ 0#4 ++ 0#4 ++ 0#4 ++ 0#4 ++ op ↔ _
  simp only [BitVec.and_append, append_eq_append_iff, BitVec.and_allOnes,
    Layout.problem_eq_none_iff, Use.problem_eq_none_iff]
  tauto

/-- The opcode of a command (30_encoding.md R96). -/
def Instr.opcode : Instr → BitVec 8
  | .dec _ => 0x10
  | .enc _ => 0x11
  | .encw _ _ => 0x12
  | .blklen _ _ => 0x13
  | .modexp _ _ _ _ => 0x20
  | .modred _ _ _ => 0x21
  | .mul _ _ _ => 0x22
  | .mov _ _ => 0x30
  | .ldi _ _ => 0x31
  | .cmp _ _ => 0x32

theorem op_of_commandOf {f : Fields} {i : Instr} (h : commandOf f = .ok i) : f.op = i.opcode := by
  unfold commandOf at h
  split at h <;> cases h <;> assumption

/-- A word that decodes fits the columns of its command's row. -/
theorem masked_of_decode {w : Word} {i : Instr} {op : BitVec 8} {l : Layout} (h : decode w = .ok i)
    (hop : i.opcode = op) (hl : layoutOf op = some l) : w &&& l.mask = wordR op 0 0 0 0 := by
  obtain ⟨hp, hc⟩ := decode_eq_ok_iff.1 h
  obtain ⟨l', hl', hfit⟩ := Fields.problem_eq_none_iff.1 hp
  have hw : (fieldsOf w).op = op := (op_of_commandOf hc).trans hop
  obtain rfl : l' = l := Option.some.inj (hl'.symm.trans (hw ▸ hl))
  exact (fits_mask_iff w op l').2 ⟨hw, hfit⟩

/-- A word that fits the columns of a row decodes, to the command that its fields have under the row's
opcode. -/
theorem decode_of_masked {w : Word} {op : BitVec 8} {l : Layout} (hl : layoutOf op = some l)
    (h : w &&& l.mask = wordR op 0 0 0 0) : decode w = commandOf { fieldsOf w with op := op } := by
  obtain ⟨rfl, hfit⟩ := (fits_mask_iff w op l).1 h
  unfold decode
  rw [Fields.problem_eq_none_iff.2 ⟨l, hl, hfit⟩]

/-- Settles O3: each row's columns are the mask and the opcode of its layout, by which the decoder
checks the word: both are computed from the row of `layoutOf`. -/
theorem decoderAgreesWithMatchAndMask : Obligations.DecoderAgreesWithMatchAndMask := by
  intro w
  refine ⟨⟨fun ⟨_, h⟩ => masked_of_decode (op := 0x10) h rfl rfl,
      fun h => ⟨_, decode_of_masked (op := 0x10) rfl h⟩⟩,
    ⟨fun ⟨_, h⟩ => masked_of_decode (op := 0x11) h rfl rfl,
      fun h => ⟨_, decode_of_masked (op := 0x11) rfl h⟩⟩,
    ⟨fun ⟨_, _, h⟩ => masked_of_decode (op := 0x12) h rfl rfl,
      fun h => ⟨_, _, decode_of_masked (op := 0x12) rfl h⟩⟩,
    ⟨fun ⟨_, _, h⟩ => masked_of_decode (op := 0x13) h rfl rfl,
      fun h => ⟨_, _, decode_of_masked (op := 0x13) rfl h⟩⟩,
    ⟨fun ⟨_, _, _, _, h⟩ => masked_of_decode (op := 0x20) h rfl rfl,
      fun h => ⟨_, _, _, _, decode_of_masked (op := 0x20) rfl h⟩⟩,
    ⟨fun ⟨_, _, _, h⟩ => masked_of_decode (op := 0x21) h rfl rfl,
      fun h => ⟨_, _, _, decode_of_masked (op := 0x21) rfl h⟩⟩,
    ⟨fun ⟨_, _, _, h⟩ => masked_of_decode (op := 0x22) h rfl rfl,
      fun h => ⟨_, _, _, decode_of_masked (op := 0x22) rfl h⟩⟩,
    ⟨fun ⟨_, _, h⟩ => masked_of_decode (op := 0x30) h rfl rfl,
      fun h => ⟨_, _, decode_of_masked (op := 0x30) rfl h⟩⟩,
    ⟨fun ⟨_, _, h⟩ => masked_of_decode (op := 0x31) h rfl rfl,
      fun h => ⟨_, _, decode_of_masked (op := 0x31) rfl h⟩⟩,
    ⟨fun ⟨_, _, h⟩ => masked_of_decode (op := 0x32) h rfl rfl,
      fun h => ⟨_, _, decode_of_masked (op := 0x32) rfl h⟩⟩⟩

end Sys2Proof

/-! SUPPORT. The completion of a word that encodes no command (30_encoding.md R98). -/

namespace Sys2Proof.Machine

theorem engineTurn_of_illegal {s : State} {e : Illegal} (hb : s.busy = true)
    (hd : decode s.cmd = .error e) :
    engineTurn s = .next ((s.takeFault .illegalCmd).record (.faulted 1)) := by
  simp only [engineTurn, evaluate, hb, if_true, hd, raise_eq]
  rfl

/-- Settles O8: in both schedules the step is the engine's turn, and it takes the fault. -/
theorem illegalWordFaultsAtCompletion : Obligations.IllegalWordFaultsAtCompletion := by
  refine fun s e hb hd => ⟨fun hi => ?_, fun rest hi => ?_⟩
  · rw [step_of_no_inputs hi]
    exact engineTurn_of_illegal hb hd
  · rw [step_of_engine hi]
    exact engineTurn_of_illegal (s := { s with inputs := rest }) hb hd

end Sys2Proof.Machine

/-! SUPPORT. The codec commands (40_codec.md): a digit sequence as a base-128 numeral, the digits of an
integer, and that `DEC` and the encoders undo each other. -/

namespace Sys2Proof.Machine

/-! ## Digit sequences as numerals -/

/-- The value of the first `n` digits of a sequence, digit 0 the most significant: the sum of
40_codec.md R120. -/
def digitValue (d : Nat → Byte) (n : Nat) : Nat :=
  ∑ i ∈ Finset.range n, (d i).toNat * 128 ^ (n - 1 - i)

/-- The sum satisfies the recurrence by which `DEC` evaluates it. -/
theorem digitValue_succ (d : Nat → Byte) (n : Nat) :
    digitValue d (n + 1) = digitValue d n * 128 + (d n).toNat := by
  unfold digitValue
  rw [Finset.sum_range_succ, Finset.sum_mul]
  congr 1
  · refine Finset.sum_congr rfl fun i hi => ?_
    have hexp : n + 1 - 1 - i = n - 1 - i + 1 := by
      have := Finset.mem_range.1 hi
      omega
    rw [hexp, pow_succ, mul_assoc]
  · simp

theorem decodeDigits_map_range (d : Nat → Byte) (n : Nat) :
    decodeDigits ((List.range n).map d) = digitValue d n := by
  induction n with
  | zero => rfl
  | succ n ih =>
    rw [digitValue_succ, ← ih]
    simp [decodeDigits, List.range_succ]

theorem digitValue_congr {d e : Nat → Byte} {n : Nat} (h : ∀ i < n, d i = e i) :
    digitValue d n = digitValue e n :=
  Finset.sum_congr rfl fun i hi => by rw [h i (Finset.mem_range.1 hi)]

theorem digitValue_of_zeros {d : Nat → Byte} {n : Nat} (h : ∀ i < n, d i = 0) :
    digitValue d n = 0 :=
  Finset.sum_eq_zero fun i hi => by simp [h i (Finset.mem_range.1 hi)]

theorem digitValue_lt {d : Nat → Byte} {n : Nat} (h : ∀ i < n, (d i).toNat < 128) :
    digitValue d n < 128 ^ n := by
  induction n with
  | zero => exact Nat.one_pos
  | succ n ih =>
    have hrest := ih fun i hi => h i (by omega)
    have hlast := h n (by omega)
    rw [digitValue_succ, pow_succ]
    omega

/-- Zeros in front do not count. -/
theorem digitValue_of_leading_zeros {d : Nat → Byte} {z : Nat} (h : ∀ i < z, d i = 0) (m : Nat) :
    digitValue d (z + m) = digitValue (fun i => d (i + z)) m := by
  induction m with
  | zero => exact digitValue_of_zeros h
  | succ m ih => rw [← add_assoc, digitValue_succ, digitValue_succ, ih, add_comm z m]

theorem pow_le_digitValue {d : Nat → Byte} (h : d 0 ≠ 0) (n : Nat) :
    128 ^ n ≤ digitValue d (n + 1) := by
  induction n with
  | zero =>
    have : (d 0).toNat ≠ 0 := fun h0 => h (BitVec.eq_of_toNat_eq h0)
    rw [digitValue_succ]
    omega
  | succ n ih =>
    rw [digitValue_succ, pow_succ]
    omega

theorem digitValue_ne_zero {d : Nat → Byte} (h : d 0 ≠ 0) (n : Nat) : digitValue d (n + 1) ≠ 0 :=
  ((Nat.pow_pos (by decide)).trans_le (pow_le_digitValue h n)).ne'

/-- The greatest value of `n` digits: every digit 127. -/
theorem digitValue_maximal (n : Nat) : digitValue (fun _ => 127#8) n + 1 = 128 ^ n := by
  induction n with
  | zero => rfl
  | succ n ih =>
    rw [digitValue_succ, pow_succ, ← ih, show (127#8).toNat = 127 from rfl]
    omega

/-! ## The digits of an integer -/

theorem toNat_digitAt (v len i : Nat) : (digitAt v len i).toNat = v / 128 ^ (len - 1 - i) % 128 := by
  unfold digitAt
  rw [BitVec.toNat_ofNat]
  omega

theorem digitAt_lt (v len i : Nat) : (digitAt v len i).toNat < 128 := by
  rw [toNat_digitAt]
  exact Nat.mod_lt _ (by decide)

/-- All digits but the last are those of the quotient by 128. -/
theorem digitAt_succ {len i : Nat} (h : i < len) (v : Nat) :
    digitAt v (len + 1) i = digitAt (v / 128) len i := by
  apply BitVec.eq_of_toNat_eq
  rw [toNat_digitAt, toNat_digitAt, Nat.div_div_eq_div_mul, ← pow_succ',
    show len + 1 - 1 - i = len - 1 - i + 1 by omega]

theorem toNat_digitAt_last (v len : Nat) : (digitAt v (len + 1) len).toNat = v % 128 := by
  simp [toNat_digitAt]

/-- Decoding the digits of an integer gives the integer. -/
theorem digitValue_digitAt {v len : Nat} (h : v < 128 ^ len) :
    digitValue (digitAt v len) len = v := by
  induction len generalizing v with
  | zero => exact (Nat.lt_one_iff.1 h).symm
  | succ len ih =>
    have hquot : v / 128 < 128 ^ len := Nat.div_lt_of_lt_mul (by rwa [← pow_succ'])
    rw [digitValue_succ, digitValue_congr fun i hi => digitAt_succ hi v, ih hquot,
      toNat_digitAt_last, Nat.div_add_mod']

/-- The digits of a sequence's value are the sequence. -/
theorem digitAt_digitValue {d : Nat → Byte} {n : Nat} (h : ∀ i < n, (d i).toNat < 128) :
    ∀ i < n, digitAt (digitValue d n) n i = d i := by
  induction n with
  | zero => exact fun i hi => absurd hi (Nat.not_lt_zero i)
  | succ n ih =>
    intro i hi
    have hlast := h n (by omega)
    obtain hi | rfl := Nat.lt_succ_iff_lt_or_eq.1 hi
    · have hquot : digitValue d (n + 1) / 128 = digitValue d n := by
        rw [digitValue_succ]
        omega
      rw [digitAt_succ hi, hquot, ih (fun j hj => h j (by omega)) i hi]
    · apply BitVec.eq_of_toNat_eq
      rw [toNat_digitAt_last, digitValue_succ]
      omega

@[simp] theorem length_digitsOf (v len : Nat) : (digitsOf v len).length = len := by simp [digitsOf]

theorem getD_digitsOf (v len i : Nat) :
    (digitsOf v len).getD i 0#8 = if i < len then digitAt v len i else 0#8 := by
  split
  next h =>
    rw [List.getD_eq_getElem _ _ (by rwa [length_digitsOf])]
    simp [digitsOf]
  next h => exact List.getD_eq_default _ _ (by rwa [length_digitsOf, ← not_lt])

/-! ## Digit counts as logarithms -/

theorem log_128_eq (v : Nat) : Nat.log 128 v = Nat.log 2 v / 7 := Nat.log_pow_left 2 7 v

theorem bitlen_eq {v : Nat} (h : v ≠ 0) : bitlen v = Nat.log 2 v + 1 := by
  rw [bitlen, if_neg h, Nat.log2_eq_log_two]

/-- Seven bits to a digit: the count of digits by the bit length is the one by the logarithm. -/
theorem ndigits_eq {v : Nat} (h : v ≠ 0) : ndigits v = Nat.log 128 v + 1 := by
  rw [ndigits, bitlen_eq h, log_128_eq]
  omega

theorem log_128_lt_dmax {c : Config} {v : Nat} (h0 : v ≠ 0) (h : v < 2 ^ c.W) :
    Nat.log 128 v < c.dmax := by
  have hbits := Nat.log_lt_of_lt_pow h0 h
  rw [log_128_eq, Config.dmax]
  omega

/-- The loop of `BLKLEN` counts the divisions by 128 that the logarithm counts. -/
theorem blockLengthLoop_eq {k t : Nat} (h : Nat.log 128 t ≤ k) (len : Nat) :
    blockLengthLoop k t len = len + Nat.log 128 t := by
  induction k generalizing t len with
  | zero => rw [blockLengthLoop, Nat.le_zero.1 h, add_zero]
  | succ k ih =>
    unfold blockLengthLoop
    split
    next ht => rw [Nat.log_of_lt ht, add_zero]
    next ht =>
      have hlog := Nat.log_of_one_lt_of_le (by decide : 1 < 128) (not_lt.1 ht)
      rw [ih (by omega), hlog]
      omega

theorem blockLength_eq {n : Nat} (h : n ≠ 0) : blockLength n = Nat.log 128 n := by
  have hrounds : Nat.log 128 n ≤ bitlen n := by
    rw [bitlen_eq h, log_128_eq]
    omega
  rw [blockLength, blockLengthLoop_eq hrounds, zero_add]

/-- The block length of a modulus, by its two bounds (40_codec.md R123). -/
theorem blockLength_bounds {n : Nat} (h : n ≠ 0) :
    128 ^ blockLength n ≤ n ∧ n < 128 ^ (blockLength n + 1) := by
  rw [blockLength_eq h]
  exact ⟨Nat.pow_log_le_self 128 h, Nat.lt_pow_succ_log_self (by decide) n⟩

theorem blockLength_pos {n : Nat} (h : 128 ≤ n) : 1 ≤ blockLength n := by
  rw [blockLength_eq (by omega)]
  exact Nat.log_pos (by decide) h

theorem blockLength_le_dmax {c : Config} {n : Nat} (h0 : n ≠ 0) (h : n < 2 ^ c.W) :
    blockLength n ≤ c.dmax := by
  rw [blockLength_eq h0]
  exact (log_128_lt_dmax h0 h).le

/-- The count of digits is the least that holds the value (40_codec.md R121). -/
theorem ndigits_bounds {v : Nat} (h : v ≠ 0) : 128 ^ (ndigits v - 1) ≤ v ∧ v < 128 ^ ndigits v := by
  rw [ndigits_eq h]
  exact ⟨Nat.pow_log_le_self 128 h, Nat.lt_pow_succ_log_self (by decide) v⟩

theorem ndigits_pos {v : Nat} (h : v ≠ 0) : 1 ≤ ndigits v := by
  rw [ndigits_eq h]
  omega

theorem ndigits_le_dmax {c : Config} {v : Nat} (h0 : v ≠ 0) (h : v < 2 ^ c.W) :
    ndigits v ≤ c.dmax := by
  rw [ndigits_eq h0]
  exact log_128_lt_dmax h0 h

/-- Of a minimal encoding the first digit is not 0 (40_codec.md R121). -/
theorem first_digit_ne_zero {v : Nat} (h : v ≠ 0) : digitAt v (ndigits v) 0 ≠ 0 := by
  obtain ⟨hlow, hhigh⟩ := ndigits_bounds h
  have hquot : v / 128 ^ (ndigits v - 1) < 128 :=
    Nat.div_lt_of_lt_mul (by rwa [← pow_succ, Nat.sub_add_cancel (ndigits_pos h)])
  have hdigit : (digitAt v (ndigits v) 0).toNat = v / 128 ^ (ndigits v - 1) := by
    rw [toNat_digitAt, Nat.sub_zero, Nat.mod_eq_of_lt hquot]
  intro h0
  rw [h0] at hdigit
  exact (Nat.div_pos hlow (by positivity)).ne hdigit

/-- A sequence that does not begin with 0 has as many digits as its value. -/
theorem ndigits_digitValue {d : Nat → Byte} {n : Nat} (h : ∀ i < n + 1, (d i).toNat < 128)
    (h0 : d 0 ≠ 0) : ndigits (digitValue d (n + 1)) = n + 1 := by
  rw [ndigits_eq (digitValue_ne_zero h0 n),
    Nat.log_eq_of_pow_le_of_lt_pow (pow_le_digitValue h0 n) (digitValue_lt h)]

theorem dmax_lt {c : Config} (h : c.legal) : c.dmax < 2 ^ 16 := by
  obtain ⟨-, -, hW⟩ := h
  unfold Config.dmax
  omega

/-! ## `DEC` (40_codec.md R120) -/

theorem decodeDigits_digitsOperand (s : State) :
    decodeDigits (digitsOperand s) = digitValue s.digit s.dlen.toNat :=
  decodeDigits_map_range _ _

theorem digitsOperand_any_iff (s : State) :
    (digitsOperand s).any (fun d => decide (128 ≤ d.toNat)) = true ↔
      ∃ i < s.dlen.toNat, 128 ≤ (s.digit i).toNat := by
  simp [digitsOperand]

theorem digitsOperand_valid {s : State} (h : ∀ i < s.dlen.toNat, (s.digit i).toNat < 128) :
    ¬ (digitsOperand s).any (fun d => decide (128 ≤ d.toNat)) = true := by
  rw [digitsOperand_any_iff]
  rintro ⟨i, hi, hd⟩
  exact absurd (h i hi) (not_lt.2 hd)

theorem exec_dec {s : State} (rd : XReg) (hpos : 1 ≤ s.dlen.toNat) (hlen : s.dlen.toNat ≤ s.cfg.dmax)
    (hvalid : ∀ i < s.dlen.toNat, (s.digit i).toNat < 128)
    (hfits : digitValue s.digit s.dlen.toNat < 2 ^ s.cfg.W) :
    exec (.dec rd) s = .next (s.setX rd (digitValue s.digit s.dlen.toNat)).deliver := by
  rw [← decodeDigits_digitsOperand] at hfits ⊢
  exact (if_neg (Nat.ne_of_gt hpos)).trans <| (if_neg (not_lt.2 hlen)).trans <|
    (if_neg (digitsOperand_valid hvalid)).trans (if_neg (not_le.2 hfits))

/-- Settles O10: on such a sequence no test of `DEC` fails, and its loop computes the sum. -/
theorem decDeliversTheValue : Obligations.DecDeliversTheValue := by
  rintro s rd _ rfl hpos hlen hvalid hfits
  exact exec_dec rd hpos hlen hvalid hfits

/-- Settles O11: each clause fails one test of `DEC` and passes the tests before it. -/
theorem decFaultsInOrder : Obligations.DecFaultsInOrder := by
  rintro s rd _ rfl
  refine ⟨fun hempty => if_pos hempty, fun hlen hpos => ?_, fun hpos hlen hdigit => ?_,
    fun hpos hlen hvalid hvalue => ?_⟩
  · exact (if_neg hpos.ne').trans (if_pos hlen)
  · exact (if_neg hpos.ne').trans <| (if_neg (not_lt.2 hlen)).trans
      (if_pos ((digitsOperand_any_iff s).2 hdigit))
  · have hover : decodeDigits (digitsOperand s) ≥ 2 ^ s.cfg.W :=
      (decodeDigits_digitsOperand s).symm ▸ hvalue
    exact (if_neg hpos.ne').trans <| (if_neg (not_lt.2 hlen)).trans <|
      (if_neg (digitsOperand_valid hvalid)).trans (if_pos hover)

/-! ## `ENC` and `ENCW` (40_codec.md R121, R122) -/

/-- The state an encoder leaves when it ends with the `len` digits of `v`. -/
def State.encoded (s : State) (v len : Nat) : State := (s.storeDigits (digitsOf v len)).deliver

theorem exec_enc {s : State} {a : XReg} (h : s.getX a ≠ 0) :
    exec (.enc a) s = .next (s.encoded (s.getX a) (ndigits (s.getX a))) :=
  if_neg h

theorem exec_encw {s : State} {a : XReg} {v : BitVec 16} (hpos : 1 ≤ v.toNat)
    (hlen : v.toNat ≤ s.cfg.dmax) (hfits : s.getX a < 128 ^ v.toNat) :
    exec (.encw a v) s = .next (s.encoded (s.getX a) v.toNat) :=
  (if_neg (not_or.2 ⟨Nat.ne_of_gt hpos, not_lt.2 hlen⟩)).trans (if_neg (not_le.2 hfits))

theorem State.encoded_dlen (s : State) (v len : Nat) :
    (s.encoded v len).dlen = BitVec.ofNat 16 len := by
  simp [State.encoded]

theorem State.encoded_dlen_imm (s : State) (x : Nat) (v : BitVec 16) :
    (s.encoded x v.toNat).dlen = v := by
  rw [State.encoded_dlen, BitVec.ofNat_toNat, BitVec.setWidth_eq]

theorem State.encoded_dlen_toNat (s : State) (v : Nat) {len : Nat} (h : len < 2 ^ 16) :
    (s.encoded v len).dlen.toNat = len := by
  rw [State.encoded_dlen, BitVec.toNat_ofNat, Nat.mod_eq_of_lt h]

theorem State.encoded_digit_of_lt {s : State} {len : Nat} (h : len ≤ s.cfg.dmax) (v : Nat) {i : Nat}
    (hi : i < len) : (s.encoded v len).digit i = digitAt v len i := by
  rw [State.encoded, State.deliver_digit, State.digit_storeDigits, if_pos (hi.trans_le h),
    getD_digitsOf, if_pos hi]

/-- An encoder clears the entries after its result (10_state.md R39). -/
theorem State.encoded_digit_of_le (s : State) (v : Nat) {len i : Nat} (hi : len ≤ i) :
    (s.encoded v len).digit i = 0 := by
  rw [State.encoded, State.deliver_digit, State.digit_storeDigits, getD_digitsOf,
    if_neg (not_lt.2 hi), ite_self]
  rfl

/-- Settles O12: the count of digits and their values are those of the minimal encoding. -/
theorem encWritesTheMinimalDigits : Obligations.EncWritesTheMinimalDigits := by
  intro s a hc hpos hfits
  have h0 : s.getX a ≠ 0 := Nat.ne_of_gt hpos
  obtain ⟨hlow, hhigh⟩ := ndigits_bounds h0
  have hk := ndigits_pos h0
  have hlen := ndigits_le_dmax h0 hfits
  refine ⟨_, _, exec_enc h0, hlow, hhigh, hk, hlen,
    State.encoded_dlen_toNat s _ (hlen.trans_lt (dmax_lt hc)), fun i hi => ?_,
    fun _ => State.encoded_digit_of_le _ _, ?_, rfl⟩
  · rw [State.encoded_digit_of_lt hlen _ hi, toNat_digitAt]
  · rw [State.encoded_digit_of_lt hlen _ hk]
    exact first_digit_ne_zero h0

/-- Settles O14: the digits of the width the immediate names, which is at most `DMAX`. -/
theorem encwWritesExactlyTheWidth : Obligations.EncwWritesExactlyTheWidth := by
  intro s a v hpos hlen hfits
  refine ⟨_, exec_encw hpos hlen hfits, State.encoded_dlen_imm s _ v, fun i hi => ?_,
    fun _ => State.encoded_digit_of_le _ _, rfl⟩
  rw [State.encoded_digit_of_lt hlen _ hi, toNat_digitAt]

/-- Settles O15: the width is tested before the value. -/
theorem encwFaultsInOrder : Obligations.EncwFaultsInOrder := by
  refine fun s a v => ⟨fun hlen => if_pos hlen, fun hpos hlen hwidth => ?_⟩
  exact (if_neg (not_or.2 ⟨Nat.ne_of_gt hpos, not_lt.2 hlen⟩)).trans (if_pos hwidth)

/-! ## `BLKLEN` (40_codec.md R123) -/

theorem exec_blklen {s : State} (rd : XReg) {a : XReg} (h : 128 ≤ s.getX a) :
    exec (.blklen rd a) s = .next (s.setX rd (blockLength (s.getX a))).deliver :=
  if_neg (not_lt.2 h)

/-- Settles O16: the loop's count is the logarithm, which is at least 1 from 128 on. -/
theorem blklenIsTheExactLogarithm : Obligations.BlklenIsTheExactLogarithm := by
  intro s rd a hn
  obtain ⟨hlow, hhigh⟩ := blockLength_bounds (n := s.getX a) (by omega)
  exact ⟨_, hlow, hhigh, blockLength_pos hn, exec_blklen rd hn⟩

/-! ## Encoding and decoding (40_codec.md R124, R125) -/

/-- `DEC` after an encoder delivers the encoded value. -/
theorem exec_dec_encoded {s : State} (hc : s.cfg.legal) (rd : XReg) {v len : Nat} (hpos : 1 ≤ len)
    (hlen : len ≤ s.cfg.dmax) (hdigits : v < 128 ^ len) (hfits : v < 2 ^ s.cfg.W) :
    exec (.dec rd) (s.encoded v len) = .next ((s.encoded v len).setX rd v).deliver := by
  have hdlen := State.encoded_dlen_toNat s v (hlen.trans_lt (dmax_lt hc))
  have hdigit : ∀ i < len, (s.encoded v len).digit i = digitAt v len i :=
    fun i => State.encoded_digit_of_lt hlen v
  have hvalue : digitValue (s.encoded v len).digit (s.encoded v len).dlen.toNat = v := by
    rw [hdlen, digitValue_congr hdigit, digitValue_digitAt hdigits]
  have hexec := exec_dec (s := s.encoded v len) rd
    (by rwa [hdlen]) (by rwa [hdlen])
    (fun i hi => by rw [hdigit i (hdlen ▸ hi)]; exact digitAt_lt v len i) (by rwa [hvalue])
  rwa [hvalue] at hexec

/-- Settles O26: both encoders leave digits whose value is the register's. -/
theorem encodeThenDecodeRestoresTheValue : Obligations.EncodeThenDecodeRestoresTheValue := by
  intro s a rd hc hfits
  refine ⟨fun hpos => ?_, fun v hpos hlen hdigits => ?_⟩
  · have h0 : s.getX a ≠ 0 := Nat.ne_of_gt hpos
    exact ⟨_, _, exec_enc h0, exec_dec_encoded hc rd (ndigits_pos h0) (ndigits_le_dmax h0 hfits)
      (ndigits_bounds h0).2 hfits, XFile.get_set_same _ _ _, rfl, rfl, rfl⟩
  · exact ⟨_, _, exec_encw hpos hlen hdigits, exec_dec_encoded hc rd hpos hlen hdigits hfits,
      XFile.get_set_same _ _ _, rfl, rfl, rfl⟩

/-- Encoding a sequence's value at the sequence's length writes the sequence. -/
theorem State.encoded_digitValue {s : State} {d : Nat → Byte} {n : Nat} (hlen : n ≤ s.cfg.dmax)
    (hvalid : ∀ i < n, (d i).toNat < 128) :
    ∀ i < n, (s.encoded (digitValue d n) n).digit i = d i := fun i hi => by
  rw [State.encoded_digit_of_lt hlen _ hi, digitAt_digitValue hvalid i hi]

/-- `ENC` of the value of a sequence that does not begin with 0 writes as many digits as the sequence
has. -/
theorem exec_enc_digitValue {s : State} {a : XReg} {d : Nat → Byte} {n : Nat}
    (hx : s.getX a = digitValue d (n + 1)) (hvalid : ∀ i < n + 1, (d i).toNat < 128) (h0 : d 0 ≠ 0) :
    exec (.enc a) s = .next (s.encoded (digitValue d (n + 1)) (n + 1)) := by
  rw [exec_enc (hx ▸ digitValue_ne_zero h0 n), hx, ndigits_digitValue hvalid h0]

/-- Settles O27: the value of the sequence is that of its digits behind the leading zeros, as many as
the minimal encoding has. -/
theorem decodeThenEncodeRestoresTheDigits : Obligations.DecodeThenEncodeRestoresTheDigits := by
  rintro s rd _ hc rfl hpos hlen hvalid hfits
  set t := (s.setX rd (digitValue s.digit s.dlen.toNat)).deliver
  have hx : t.getX rd = digitValue s.digit s.dlen.toNat := XFile.get_set_same _ _ _
  refine ⟨t, exec_dec rd hpos hlen hvalid hfits, rfl, rfl, rfl, fun z hz hzeros hlead => ?_,
    fun hzeros => ?_, ?_⟩
  · obtain ⟨m, hm⟩ : ∃ m, s.dlen.toNat = z + (m + 1) := ⟨s.dlen.toNat - z - 1, by omega⟩
    have hrest : ∀ i < m + 1, (s.digit (i + z)).toNat < 128 := fun i hi => hvalid _ (by omega)
    have hfirst : s.digit (0 + z) ≠ 0 := by rwa [zero_add]
    have hcount : m + 1 ≤ t.cfg.dmax := (by omega : m + 1 ≤ s.dlen.toNat).trans hlen
    rw [hm, digitValue_of_leading_zeros hzeros] at hx
    rw [show s.dlen.toNat - z = m + 1 by omega]
    exact ⟨_, exec_enc_digitValue hx hrest hfirst, rfl, rfl, rfl,
      State.encoded_dlen_toNat t _ (hcount.trans_lt (dmax_lt hc)),
      State.encoded_digitValue hcount hrest, fun _ => State.encoded_digit_of_le _ _⟩
  · have hzero : t.getX rd = 0 := hx.trans (digitValue_of_zeros hzeros)
    exact ⟨hzero, if_pos hzero⟩
  · have hexec := exec_encw (s := t) (a := rd) hpos hlen (hx.trans_lt (digitValue_lt hvalid))
    rw [hx] at hexec
    exact ⟨_, hexec, rfl, rfl, rfl, State.encoded_dlen_imm t _ s.dlen,
      State.encoded_digitValue hlen hvalid, fun _ => State.encoded_digit_of_le _ _⟩

/-! ## Blocks and their modulus (40_codec.md R126) -/

theorem exec_modexp {s : State} (rd : XReg) {a : XReg} (b : XReg) {c : XReg} (hn : 128 ≤ s.getX c)
    (hbase : s.getX a < s.getX c) : exec (.modexp rd a b c) s =
      .next (s.setX rd (modExp (s.getX a) (s.getX b) (s.getX c))).deliver :=
  (if_neg (not_lt.2 hn)).trans (if_neg (not_le.2 hbase))

/-- Settles O28: the block's value is below `128^L`, and the sequence of `L + 1` digits 127 stands for
`128^(L+1) - 1`; the modulus lies between. -/
theorem blockLengthFitsTheModulus : Obligations.BlockLengthFitsTheModulus := by
  intro s rb rn rd rq re t hregs hn ht
  have h0 : s.getX rn ≠ 0 := by omega
  obtain ⟨hlow, hhigh⟩ := blockLength_bounds h0
  have hfits : s.getX rn < 2 ^ s.cfg.W := s.regsFit_iff.1 hregs rn
  have hlen : t.getX rb = blockLength (s.getX rn) := by
    rw [exec_blklen rb hn] at ht
    cases ht
    exact XFile.get_set_same _ _ _
  rw [hlen]
  refine ⟨fun p hcfg hpn hne hdlen hvalid => ?_, ?_⟩
  · have hpos := blockLength_pos hn
    have hmax := blockLength_le_dmax h0 (hcfg.symm ▸ hfits)
    rw [← hdlen] at hpos hmax hvalid hlow
    have hvalue : digitValue p.digit p.dlen.toNat < s.getX rn := (digitValue_lt hvalid).trans_le hlow
    have hdec := exec_dec rd hpos hmax hvalid (hcfg ▸ hvalue.trans hfits)
    set q := (p.setX rd (digitValue p.digit p.dlen.toNat)).deliver
    have hbase : q.getX rd < s.getX rn := (XFile.get_set_same _ _ _).trans_lt hvalue
    have hmod : q.getX rn = s.getX rn := (XFile.get_set_other _ _ hne.symm).trans hpn
    rw [← hmod] at hn hbase
    exact ⟨q, _, hdec, hmod ▸ hbase, rfl, exec_modexp rq re hn hbase, rfl, rfl⟩
  · have hmax := digitValue_maximal (blockLength (s.getX rn) + 1)
    exact Nat.le_of_lt_succ (hhigh.trans_eq hmax.symm)

end Sys2Proof.Machine

/-! SUPPORT. The modular arithmetic commands (41_modular.md): the square-and-multiply loop computes the
power, and which codes a command can raise. -/

namespace Sys2Proof.Machine

/-! ## Square-and-multiply (41_modular.md R143) -/

theorem lt_two_pow_bitlen (v : Nat) : v < 2 ^ bitlen v := by
  by_cases h : v = 0
  · simp [h, bitlen]
  · rw [bitlen_eq h]
    exact Nat.lt_pow_succ_log_self one_lt_two v

/-- Dropping one bit less of an exponent appends bit `k` to what is left of it. -/
theorem div_two_pow_eq_bit (e k : Nat) :
    e / 2 ^ k = e / 2 ^ (k + 1) + e / 2 ^ (k + 1) + (e.testBit k).toNat := by
  rw [Nat.toNat_testBit, pow_succ, ← Nat.div_div_eq_div_mul]
  omega

/-- One round of the loop: the power of the bits read so far is squared, and multiplied by the base where
the next bit is 1. -/
theorem square_multiply_round (b n p : Nat) (bit : Bool) :
    (if bit then b ^ p % n * (b ^ p % n) % n * b % n else b ^ p % n * (b ^ p % n) % n) =
      b ^ (p + p + bit.toNat) % n := by
  rw [← Nat.mul_mod, ← pow_add]
  cases bit with
  | true => rw [if_pos rfl, Nat.mod_mul_mod, Bool.toNat_true, pow_succ]
  | false => rfl

/-- From the power of the exponent's bits `k` and above, the loop over the bits below `k` computes the
power of the exponent. -/
theorem modExpLoop_eq (b e n k : Nat) :
    modExpLoop b e n k (b ^ (e / 2 ^ k) % n) = b ^ e % n := by
  induction k with
  | zero => rw [modExpLoop, pow_zero, Nat.div_one]
  | succ k ih => rw [modExpLoop, square_multiply_round, ← div_two_pow_eq_bit, ih]

/-- The reference algorithm computes the power modulo `n`. -/
theorem modExp_eq {n : Nat} (hn : 1 < n) (b e : Nat) : modExp b e n = b ^ e % n := by
  have hstart : b ^ (e / 2 ^ bitlen e) % n = 1 := by
    rw [Nat.div_eq_of_lt (lt_two_pow_bitlen e), pow_zero, Nat.mod_eq_of_lt hn]
  rw [modExp, ← modExpLoop_eq b e n (bitlen e), hstart]

/-! ## `MODEXP` (41_modular.md R140) -/

theorem exec_modexp_pow {s : State} (rd : XReg) {a : XReg} (b : XReg) {c : XReg}
    (hn : 128 ≤ s.getX c) (hbase : s.getX a < s.getX c) : exec (.modexp rd a b c) s =
      .next (s.setX rd (s.getX a ^ s.getX b % s.getX c)).deliver := by
  rw [exec_modexp rd b hn hbase, modExp_eq (by omega)]

/-- Settles O17: no test of `MODEXP` fails, and its loop computes the power. -/
theorem modexpDeliversThePowerModuloN : Obligations.ModexpDeliversThePowerModuloN :=
  fun _ rd _ b _ hn hbase => exec_modexp_pow rd b hn hbase

/-- Settles O18: the modulus is tested before the base. -/
theorem modexpFaultsInOrder : Obligations.ModexpFaultsInOrder :=
  fun _ _ _ _ _ => ⟨fun hsmall => if_pos hsmall,
    fun hn hbase => (if_neg (not_lt.2 hn)).trans (if_pos hbase)⟩

/-! ## `MODRED` and `MUL` (41_modular.md R141, R142) -/

theorem exec_modred {s : State} (rd a : XReg) {c : XReg} (hn : 128 ≤ s.getX c) :
    exec (.modred rd a c) s = .next (s.setX rd (s.getX a % s.getX c)).deliver :=
  if_neg (not_lt.2 hn)

/-- Settles O20: the one test of `MODRED` does not fail. -/
theorem modredDeliversTheRemainder : Obligations.ModredDeliversTheRemainder :=
  fun _ rd a _ hn => exec_modred rd a hn

/-- Settles O21: the one test of `MUL` is on the exact product. -/
theorem mulIsExactOrOverflows : Obligations.MulIsExactOrOverflows :=
  fun _ _ _ _ => ⟨fun hfits => if_neg (not_le.2 hfits), fun hover => if_pos hover⟩

/-! ## Laws of the powers (41_modular.md R145, R147, R153) -/

/-- A register below a modulus is an admissible base under every register that holds the modulus. -/
theorem modexp_completes {t : State} {a : XReg} {n : Nat} (hn : 128 ≤ n) (hbase : t.getX a < n)
    (rd b c : XReg) (hc : t.getX c = n) :
    ∃ u, exec (.modexp rd a b c) t = .next u ∧ u.err = t.err ∧ u.done = true := by
  subst hc
  exact ⟨_, exec_modexp rd b hn hbase, rfl, rfl⟩

/-- Settles O29: both results are remainders modulo `n`. -/
theorem resultsStayBelowTheModulus : Obligations.ResultsStayBelowTheModulus := by
  intro s rd a b c hn
  have hbelow : ∀ v, ((s.setX rd (v % s.getX c)).deliver).getX rd < s.getX c := fun v => by
    rw [State.deliver_getX, State.getX_setX, if_pos rfl]
    exact Nat.mod_lt v (by omega)
  exact ⟨⟨_, exec_modred rd a hn, hbelow _, modexp_completes hn (hbelow _)⟩,
    fun hbase => ⟨_, exec_modexp_pow rd b hn hbase, hbelow _, modexp_completes hn (hbelow _)⟩⟩

/-- Settles O30: the first power of a base below the modulus is its remainder, and is the base. -/
theorem exponentOneIsReductionBelowTheModulus : Obligations.ExponentOneIsReductionBelowTheModulus := by
  intro s rd a b c hone hn
  obtain ⟨-, hfault⟩ := modexpFaultsInOrder s rd a b c
  refine ⟨fun hbase => ?_, fun hbase => ⟨hfault hn hbase, exec_modred rd a hn⟩⟩
  rw [exec_modexp_pow rd b hn hbase, exec_modred rd a hn, hone, pow_one]
  refine ⟨rfl, ?_⟩
  rw [Nat.mod_eq_of_lt hbase]
  rfl

/-- Settles O31: the power is 1 at exponent 0, and 0 at base 0 and a greater exponent. -/
theorem exponentiationAtZero : Obligations.ExponentiationAtZero := by
  refine fun s rd a b c hn => ⟨fun hexp hbase => ?_, fun hzero hexp => ?_⟩
  · rw [exec_modexp_pow rd b hn hbase, hexp, pow_zero, Nat.mod_eq_of_lt (by omega)]
    rfl
  · rw [exec_modexp_pow rd b hn (by omega), hzero, zero_pow (Nat.ne_of_gt hexp), Nat.zero_mod]
    rfl

/-! ## No command wraps (41_modular.md R151) -/

/-- The fault codes a command can raise once its word has decoded, in the order of its tests
(60_exceptions.md R191, R201). -/
def faultsOf : Instr → List FaultCode
  | .dec _ => [.empty, .lenRange, .digitRange, .overflow]
  | .enc _ => [.encodeZero]
  | .encw _ _ => [.lenRange, .width]
  | .blklen _ _ => [.modulusSmall]
  | .modexp _ _ _ _ => [.modulusSmall, .baseRange]
  | .modred _ _ _ => [.modulusSmall]
  | .mul _ _ _ => [.overflow]
  | .mov _ _ | .ldi _ _ | .cmp _ _ => []

/-- The shape of a command: tests in order, each raising its code, then a successful end, which leaves
`ECODE` as it was (60_exceptions.md R190, R201). -/
inductive Tested (s : State) : List FaultCode → Result → Prop where
  | done (u : State) (h : u.ecode = s.ecode) : Tested s [] (finish u)
  | test (p : Prop) [Decidable p] (c : FaultCode) {cs : List FaultCode} {r : Result}
      (h : Tested s cs r) : Tested s (c :: cs) (if p then raise c s else r)

theorem exec_tested (i : Instr) (s : State) : Tested s (faultsOf i) (exec i s) := by
  cases i with
  | dec => exact .test _ _ <| .test _ _ <| .test _ _ <| .test _ _ <| .done _ rfl
  | encw | modexp => exact .test _ _ <| .test _ _ <| .done _ rfl
  | enc | blklen | modred | mul => exact .test _ _ <| .done _ rfl
  | mov | ldi | cmp => exact .done _ rfl

theorem Tested.ecode_or_fault {s t : State} {cs : List FaultCode} {r : Result} (h : Tested s cs r)
    (hr : r = .next t) : t.ecode = s.ecode ∨ ∃ c ∈ cs, t = s.takeFault c := by
  induction h with
  | done u hu =>
    cases hr
    exact .inl hu
  | test p c h ih =>
    split at hr
    · cases hr
      exact .inr ⟨c, List.mem_cons_self, rfl⟩
    · exact (ih hr).imp_right fun ⟨d, hd, ht⟩ => ⟨d, List.mem_cons_of_mem c hd, ht⟩

theorem FaultCode.code_injective {c d : FaultCode} : c.code = d.code → c = d := by
  cases c <;> cases d <;> decide

/-- A code that `ECODE` did not hold before a command is one the command can raise. -/
theorem code_mem_faultsOf {i : Instr} {s t : State} {c : FaultCode} (h : exec i s = .next t)
    (hs : s.ecode ≠ c.code) (ht : t.ecode = c.code) : c ∈ faultsOf i := by
  obtain hkeep | ⟨d, hd, rfl⟩ := (exec_tested i s).ecode_or_fault h
  · exact absurd (hkeep.symm.trans ht) hs
  · exact FaultCode.code_injective ht ▸ hd

/-- `OVERFLOW` is raised by `DEC` and `MUL` alone (60_exceptions.md R196). -/
theorem overflow_mem_faultsOf {i : Instr} (h : FaultCode.overflow ∈ faultsOf i) :
    (∃ rd, i = .dec rd) ∨ ∃ rd a b, i = .mul rd a b := by
  cases i with
  | dec rd => exact .inl ⟨rd, rfl⟩
  | mul rd a b => exact .inr ⟨rd, a, b, rfl⟩
  | enc | encw | blklen | modexp | modred | mov | ldi | cmp => simp [faultsOf] at h

/-- A sequence whose value does not fit faults `DEC`: with `OVERFLOW`, or at one of the tests before. -/
theorem exec_dec_of_overflow {s : State} (rd : XReg)
    (hvalue : 2 ^ s.cfg.W ≤ digitValue s.digit s.dlen.toNat) :
    ∃ t, exec (.dec rd) s = .next t ∧ t.x = s.x ∧ t.err = true := by
  obtain ⟨-, hlong, hdigit, hover⟩ := decFaultsInOrder s rd _ rfl
  have hpos : 0 < s.dlen.toNat := Nat.pos_of_ne_zero fun h0 => by
    simp [h0, digitValue] at hvalue
  by_cases hlen : s.dlen.toNat ≤ s.cfg.dmax
  · by_cases hvalid : ∀ i < s.dlen.toNat, (s.digit i).toNat < 128
    · exact ⟨_, hover hpos hlen hvalid hvalue, rfl, rfl⟩
    · push Not at hvalid
      exact ⟨_, hdigit hpos hlen hvalid, rfl, rfl⟩
  · exact ⟨_, hlong (not_le.1 hlen) hpos, rfl, rfl⟩

/-- Settles O22: the two commands whose exact result can be `2^W` or more test it, no other command has
that test, and every result that is delivered fits. -/
theorem noCommandWraps : Obligations.NoCommandWraps := by
  refine ⟨fun s rd a b hover => ?_, ?_,
    fun i s t h => ⟨fun hs ht => ?_, fun hc => exec_keeps_regsFit hc h⟩⟩
  · obtain ⟨-, hfault⟩ := mulIsExactOrOverflows s rd a b
    exact ⟨_, hfault hover, rfl, rfl, rfl⟩
  · rintro s rd _ rfl hvalue
    exact exec_dec_of_overflow rd hvalue
  · exact overflow_mem_faultsOf (code_mem_faultsOf (c := .overflow) h hs ht)

end Sys2Proof.Machine

/-! SUPPORT. The move and compare commands (42_move_compare.md): none of the three makes a test, so each
has one end in every state. -/

namespace Sys2Proof.Machine

theorem exec_mov (s : State) (rd a : XReg) :
    exec (.mov rd a) s = .next (s.setX rd (s.getX a)).deliver := rfl

theorem exec_ldi (s : State) (rd : XReg) (v : BitVec 16) :
    exec (.ldi rd v) s = .next (s.setX rd v.toNat).deliver := rfl

theorem exec_cmp (s : State) (a b : XReg) :
    exec (.cmp a b) s =
      .next (s.setFlags (eqFlag (s.getX a) (s.getX b)) (ltFlag (s.getX a) (s.getX b))).deliver := rfl

/-- Settles O23: the one write of `MOV` is the source's value to its destination. -/
theorem movCopiesTheRegister : Obligations.MovCopiesTheRegister := exec_mov

/-- Settles O24: the one write of `LDI` is the immediate as a number to its destination. -/
theorem ldiLoadsTheImmediate : Obligations.LdiLoadsTheImmediate := exec_ldi

/-- Settles O25: the flags `CMP` sets are the two comparisons of natural numbers. -/
theorem cmpWritesBothFlags : Obligations.CmpWritesBothFlags := exec_cmp

end Sys2Proof.Machine

/-! SUPPORT. The host sequence `WRX` (43_host_sequences.md R171): the words of an integer written one by
one, in an order that the general lemmas leave open. -/

namespace Sys2Proof.Machine

/-! ## Words of one integer put into another -/

/-- The integer `x` with the words that `js` names replaced, in that order, by those of `v`. -/
def copyWords (v : Nat) : List Nat → Nat → Nat
  | [], x => x
  | j :: js, x => copyWords v js (withWord x j (wordAt v j))

/-- One word copied: its 32 bits are those of `v`. -/
theorem testBit_withWord_wordAt (v j x b : Nat) :
    (withWord x j (wordAt v j)).testBit b = if b / 32 = j then v.testBit b else x.testBit b := by
  rw [testBit_withWord]
  by_cases hb : b / 32 = j
  · rw [if_pos (by omega), if_pos hb, getLsbD_wordAt, decide_eq_true (by omega), Bool.true_and,
      show 32 * j + (b - 32 * j) = b by omega]
  · rw [if_neg (by omega), if_neg hb]

/-- The order of the words does not matter, nor does a word copied twice. -/
theorem testBit_copyWords (v : Nat) (js : List Nat) (x b : Nat) :
    (copyWords v js x).testBit b = if b / 32 ∈ js then v.testBit b else x.testBit b := by
  induction js generalizing x with
  | nil => simp [copyWords]
  | cons j js ih =>
    rw [copyWords, ih, testBit_withWord_wordAt]
    by_cases hjs : b / 32 ∈ js <;> simp [hjs]

/-- All `n` words copied leave nothing of an integer of `n` words. -/
theorem copyWords_eq {v x n : Nat} {js : List Nat} (hjs : ∀ j < n, j ∈ js) (hv : v < 2 ^ (32 * n))
    (hx : x < 2 ^ (32 * n)) : copyWords v js x = v := by
  refine Nat.eq_of_testBit_eq fun b => ?_
  rw [testBit_copyWords]
  by_cases hb : b / 32 < n
  · rw [if_pos (hjs _ hb)]
  · have hpow : 2 ^ (32 * n) ≤ 2 ^ b := Nat.pow_le_pow_right (by omega) (by omega)
    rw [Nat.testBit_lt_two_pow (hx.trans_le hpow), Nat.testBit_lt_two_pow (hv.trans_le hpow), ite_self]

theorem Config.legal_width {c : Config} (hc : c.legal) : c.W = 32 * c.nw := by
  obtain ⟨hmod, -⟩ := hc
  unfold Config.nw
  omega

/-! ## The writes of `WRX` -/

theorem XFile.set_set (f : XFile) (r : XReg) (u v : Nat) : (f.set r u).set r v = f.set r v := by
  cases r <;> rfl

theorem XFile.set_get (f : XFile) (r : XReg) : f.set r (f.get r) = f := by
  cases r <;> rfl

theorem step_put_xOffset {s : State} {r : XReg} {j : Nat} {w : Word} {rest : List Event}
    (hc : s.cfg.legal) (hb : s.phase ≠ .busy) (hj : j < s.cfg.nw)
    (h : s.inputs = put (xOffset r j) w :: rest) :
    step s = .next { s.setX r (withWord (s.getX r) j w) with
      inputs := rest, trace := .response 0 false :: s.trace } := by
  obtain ⟨-, hwrite⟩ := transactionsStepThroughTheBus s (xOffset r j) 4 rest
  rw [hwrite w h, xOffset, busWrite_xWord hc hb r hj]

/-- The writes of some words of an integer, in any order, copy them into the register. -/
theorem run_put_words {s : State} {r : XReg} {v : Nat} {js : List Nat} {rest : List Event}
    (hc : s.cfg.legal) (hb : s.phase ≠ .busy) (hjs : ∀ j ∈ js, j < s.cfg.nw)
    (h : s.inputs = js.map (fun j => put (xOffset r j) (wordAt v j)) ++ rest) :
    ∃ tr, Host.Core.run core js.length s = .next { s with
      x := s.x.set r (copyWords v js (s.getX r)), inputs := rest, trace := tr } := by
  induction js generalizing s with
  | nil =>
    refine ⟨s.trace, ?_⟩
    have hrest : s.inputs = rest := h
    rw [copyWords, State.getX, XFile.set_get, ← hrest]
    rfl
  | cons j js ih =>
    obtain ⟨hj, hjs⟩ := List.forall_mem_cons.1 hjs
    have hstep := step_put_xOffset hc hb hj h
    obtain ⟨tr, hrun⟩ := ih (s := { s.setX r (withWord (s.getX r) j (wordAt v j)) with
      inputs := _, trace := _ }) hc hb hjs rfl
    refine ⟨tr, (run_succ js.length hstep).trans (hrun.trans ?_)⟩
    simp only [State.getX, State.setX, XFile.set_set, XFile.get_set_same, copyWords]

/-- Settles O51: the words in rising order are all the words, and the register holds no others. -/
theorem wrxLeavesTheInteger : Obligations.WrxLeavesTheInteger := by
  rintro s r v ⟨hc, -, -, hfit, -⟩ hb hv hin
  obtain ⟨tr, hrun⟩ := run_put_words (js := List.range s.cfg.nw) hc hb (fun _ => List.mem_range.1)
    (hin.trans (List.append_nil _).symm)
  have hx := s.regsFit_iff.1 hfit r
  rw [Config.legal_width hc] at hv hx
  rw [List.length_range, copyWords_eq (fun _ => List.mem_range.2) hv hx] at hrun
  exact ⟨_, hrun, rfl⟩

end Sys2Proof.Machine

/-! SUPPORT. Faults (60_exceptions.md): how a step comes to raise one, what keeps it in phase `HALT`, and
which commands raise `ENCODE_ZERO` and `MODULUS_SMALL`. -/

namespace Sys2Proof.Machine

/-! ## Fault entry (60_exceptions.md R190, R202) -/

/-- No write of the host sets `ERR`. -/
theorem writeTarget_err_of_no_err {s : State} (h : s.err = false) (v : Word) (tg : Target) :
    (writeTarget s v tg).err = false := by
  by_cases hcmd : tg = .cmd
  · subst hcmd
    exact h
  by_cases hstatus : tg = .status
  · subst hstatus
    rw [show writeTarget s v .status = _ from writeStatus_eq s v]
    simp [h]
  obtain ⟨-, herr, -⟩ := writeTarget_status s v tg hcmd hstatus
  exact herr.trans h

/-- The engine's turn uses up its own event, if there is one. -/
theorem engine_rest {inputs rest : List Event}
    (h : inputs = rest ∧ rest = [] ∨ inputs = .engine :: rest) : rest = inputs.tail := by
  obtain ⟨rfl, rfl⟩ | rfl := h <;> rfl

/-- A step that raises `ERR` is a completion that takes a fault, whatever word it evaluates. -/
theorem step_raises_err {s t : State} (h : step s = .next t) (hs : s.err = false) (ht : t.err = true) :
    s.busy = true ∧ (s.inputs = [] ∨ s.inputs.head? = some .engine) ∧ ∃ c : FaultCode,
      t = (({ s with inputs := s.inputs.tail } : State).takeFault c).record (.faulted c.code) := by
  have g := step_goes s
  rw [h] at g
  cases g with
  | read | refused | idle => exact absurd ht (by simp [hs])
  | reset => exact absurd ht nofun
  | write off size v rest tg =>
    have herr := writeTarget_err_of_no_err (s := { s with inputs := rest }) hs v tg
    exact absurd ht (by simp [herr])
  | illegal rest hm hb => exact ⟨hb, engine_moves hm, .illegalCmd, by rw [engine_rest hm]; rfl⟩
  | completion rest hm hb i _ u hu =>
    obtain ⟨-, -, herr, -⟩ | ⟨c, rfl⟩ := exec_done_or_fault hu
    · exact absurd ht (by simp [herr, hs])
    · exact ⟨hb, engine_moves hm, c, by rw [engine_rest hm]; rfl⟩

/-- Settles O35: the step takes one of the nine faults on a state whose input list has moved on, and
taking a fault writes `BUSY`, `ERR` and `ECODE` alone. -/
theorem faultsHaveNoPartialEffect : Obligations.FaultsHaveNoPartialEffect := by
  intro s t h hs ht
  obtain ⟨hb, hm, c, rfl⟩ := step_raises_err h hs ht
  obtain ⟨hlow, hhigh⟩ := c.code_range
  exact ⟨hb, hm, hlow, hhigh, (State.phase_eq_halt_iff _).2 ⟨rfl, rfl⟩, rfl⟩

/-! ## The outstanding fault (60_exceptions.md R204) -/

/-- An admitted write in phase `HALT` that does not clear `ERR` keeps the fault and its word. -/
theorem writeTarget_of_halt {s : State} {v : Word} {tg : Target} (h : s.phase = .halt)
    (ha : writeAdmitted s.phase tg = true) (hclear : tg = .status → v.getLsbD 2 ≠ true) :
    (writeTarget s v tg).phase = .halt ∧ (writeTarget s v tg).ecode = s.ecode ∧
      (writeTarget s v tg).cmd = s.cmd := by
  have hcmd : tg ≠ .cmd := by
    rintro rfl
    exact absurd (h.symm.trans (phase_of_cmd_admitted ha)) nofun
  have hphase : (writeTarget s v tg).phase = s.phase := by
    by_contra hne
    obtain ⟨rfl, -⟩ | ⟨rfl, -, -, hv⟩ := writeTarget_phase ha hne
    · exact hcmd rfl
    · exact hclear rfl hv
  have hcode : (writeTarget s v tg).ecode = s.ecode := by
    by_cases hstatus : tg = .status
    · subst hstatus
      rw [show writeTarget s v .status = _ from writeStatus_eq s v]
      exact if_neg (hclear rfl)
    · obtain ⟨-, -, hcode⟩ := writeTarget_status s v tg hcmd hstatus
      exact hcode
  obtain ⟨-, hword⟩ := writeTarget_busy s v tg hcmd
  exact ⟨hphase.trans h, hcode, hword⟩

/-- Settles O38: in phase `HALT` nothing completes, and an admitted write keeps the fault unless it is the
clearing one. -/
theorem haltKeepsTheFault : Obligations.HaltKeepsTheFault := by
  intro s t hs h hreset hclear
  obtain ⟨hidle, -⟩ := s.phase_eq_halt_iff.1 hs
  have g := step_goes s
  rw [h] at g
  cases g with
  | read | refused | idle => exact ⟨hs, rfl, rfl⟩
  | reset rest hr => exact absurd (by rw [hr]; rfl) hreset
  | illegal _ _ hb | completion _ _ hb => exact absurd hb (by simp [hidle])
  | write off size v rest tg hw ht ha =>
    refine writeTarget_of_halt (s := { s with inputs := rest }) hs ha ?_
    rintro rfl hv
    obtain ⟨rfl, rfl⟩ := offset_of_status ht
    exact hclear v hv (by rw [hw]; rfl)

/-! ## `ENCODE_ZERO` and `MODULUS_SMALL` (60_exceptions.md R197, R199) -/

/-- `ENCODE_ZERO` is among the codes of `ENC` alone. -/
theorem encodeZero_mem_faultsOf {i : Instr} (h : FaultCode.encodeZero ∈ faultsOf i) :
    ∃ a, i = .enc a := by
  cases i with
  | enc a => exact ⟨a, rfl⟩
  | dec | encw | blklen | modexp | modred | mul | mov | ldi | cmp => simp [faultsOf] at h

/-- Settles O13: `ENC` alone has the test, and of a value other than 0 it keeps `ECODE`. -/
theorem encodeZeroIsFromEncAlone : Obligations.EncodeZeroIsFromEncAlone := by
  refine ⟨fun s a hzero => if_pos hzero, fun i s t hs h ht => ?_⟩
  obtain ⟨a, rfl⟩ := encodeZero_mem_faultsOf (code_mem_faultsOf (c := .encodeZero) h hs ht)
  refine ⟨a, rfl, by_contra fun hne => hs ?_⟩
  rw [exec_enc hne] at h
  cases h
  exact ht

/-- Settles O19: the modulus is the first test of the three commands, and `MUL` has no such test. -/
theorem smallModulusFaults : Obligations.SmallModulusFaults := by
  refine ⟨fun s rd a b c hsmall => ?_, fun s t rd a b hs h ht => ?_⟩
  · obtain ⟨hmodexp, -⟩ := modexpFaultsInOrder s rd a b c
    exact ⟨if_pos hsmall, hmodexp hsmall, if_pos hsmall⟩
  · have hmem := code_mem_faultsOf (c := .modulusSmall) h hs ht
    simp [faultsOf] at hmem

end Sys2Proof.Machine

/-! SUPPORT. The reset event, the first command after it, and the end of phase `BUSY`
(70_reset_and_hazards.md). -/

namespace Sys2Proof.Machine

/-! ## A running command (70_reset_and_hazards.md R245) -/

/-- No admitted write ends phase `BUSY`: `CMD` refuses it, and no other target holds `BUSY`. -/
theorem writeTarget_keeps_busy {s : State} (hb : s.busy = true) {tg : Target}
    (ha : writeAdmitted s.phase tg = true) (v : Word) : (writeTarget s v tg).busy = true := by
  have hcmd : tg ≠ .cmd := by
    rintro rfl
    exact absurd ((s.phase_eq_busy_iff.2 hb).symm.trans (phase_of_cmd_admitted ha)) nofun
  obtain ⟨hbusy, -⟩ := writeTarget_busy s v tg hcmd
  exact hbusy.trans hb

/-- A step that is no reset ends the running command, or takes one waiting event. -/
theorem step_of_busy {s : State} (hb : s.busy = true) (hr : .reset ∉ s.inputs) :
    ∃ t, step s = .next t ∧ (t.busy = false ∨ t.busy = true ∧ ∃ e, s.inputs = e :: t.inputs) := by
  have g := step_goes s
  generalize step s = r at g
  cases g with
  | read off size rest h => exact ⟨_, rfl, .inr ⟨hb, _, h⟩⟩
  | refused off size v rest h => exact ⟨_, rfl, .inr ⟨hb, _, h⟩⟩
  | write off size v rest tg h _ ha =>
    obtain ⟨-, -, -, hinputs, -⟩ := writeTarget_frame { s with inputs := rest } v tg
    refine ⟨_, rfl, .inr ⟨writeTarget_keeps_busy (s := { s with inputs := rest }) hb ha v,
      .write off size v, ?_⟩⟩
    rw [State.record_inputs, hinputs, h]
  | reset rest h => exact absurd (h ▸ List.mem_cons_self) hr
  | idle _ _ hidle => exact absurd (hb.symm.trans hidle) nofun
  | illegal => exact ⟨_, rfl, .inl rfl⟩
  | completion rest _ _ i _ t ht =>
    obtain ⟨-, -, -, -, -, -, hdone⟩ := commandsLeaveTheRestAlone i _ t ht
    exact ⟨_, rfl, .inl hdone⟩

/-- Settles O60, by induction on the events that wait: a step either ends the command or takes one of
them, and with none left it ends the command. -/
theorem runningCommandsComplete : Obligations.RunningCommandsComplete := by
  intro s
  induction hi : s.inputs generalizing s with
  | nil =>
    intro hb hr
    obtain ⟨t, hstep, hend | ⟨-, e, he⟩⟩ := step_of_busy hb (hi ▸ hr)
    · exact ⟨1, le_rfl, t, run_succ 0 hstep, hend⟩
    · exact absurd (hi.symm.trans he) nofun
  | cons e rest ih =>
    intro hb hr
    obtain ⟨t, hstep, hend | ⟨hb', e', he⟩⟩ := step_of_busy hb (hi ▸ hr)
    · exact ⟨1, Nat.succ_le_succ (Nat.zero_le _), t, run_succ 0 hstep, hend⟩
    · obtain ⟨-, hrest⟩ := List.cons.inj (he.symm.trans hi)
      obtain ⟨k, hk, u, hrun, hend⟩ := ih t hrest hb' fun h => hr (List.mem_cons_of_mem e h)
      exact ⟨k + 1, Nat.succ_le_succ hk, u, (run_succ k hstep).trans hrun, hend⟩

/-! ## The reset event (70_reset_and_hazards.md R230 to R232) -/

/-- Settles O52: the step is the reset event, which names every field. -/
theorem resetClearsEverything : Obligations.ResetClearsEverything :=
  fun _ _ h => step_reset h

/-- Settles O58: a write, a command and a reset each keep the parameter, and they are all that touches
the state of ME128. -/
theorem noStepChangesTheWidth : Obligations.NoStepChangesTheWidth := by
  intro s t h
  refine step_keeps (fun u => u.cfg = s.cfg) (fun _ _ _ hu => hu) (fun u _ _ v tg _ _ hu => ?write)
    (fun _ hu => hu) (fun _ _ hu => hu) (fun i u w _ he hu => ?command) h rfl
  case write =>
    obtain ⟨hcfg, -⟩ := writeTarget_frame u v tg
    exact hcfg.trans hu
  case command =>
    obtain ⟨hcfg, -⟩ := commandsLeaveTheRestAlone i u w he
    exact hcfg.trans hu

/-! ## The first command (70_reset_and_hazards.md R235) -/

theorem State.setX_of_getX {s : State} {r : XReg} {v : Nat} (h : s.getX r = v) : s.setX r v = s := by
  rw [← h, State.setX, State.getX, XFile.set_get]

theorem digitAt_zero (len i : Nat) : digitAt 0 len i = 0 := by
  simp [digitAt]

/-- The zero value encodes as zeros at every width (40_codec.md R122). -/
theorem State.encoded_zero_digit {s : State} {len : Nat} (h : len ≤ s.cfg.dmax) (i : Nat) :
    (s.encoded 0 len).digit i = 0 := by
  obtain hi | hi := lt_or_ge i len
  · rw [State.encoded_digit_of_lt h 0 hi, digitAt_zero]
  · exact State.encoded_digit_of_le s 0 hi

/-- The product of zeros, written to a register that holds 0, changes no register. -/
theorem exec_mul_of_zeros {s : State} (hx : ∀ r, s.getX r = 0) (rd a b : XReg) :
    exec (.mul rd a b) s = .next s.deliver := by
  obtain ⟨hmul, -⟩ := mulIsExactOrOverflows s rd a b
  rw [hx a, Nat.zero_mul] at hmul
  exact (hmul (Nat.two_pow_pos _)).trans (congrArg finish (State.setX_of_getX (hx rd)))

/-- Settles O54: the issue is a write admitted in phase `IDLE`, and each command's own rule applies to a
state whose registers and `DLEN` are 0. -/
theorem firstCommandAfterReset : Obligations.FirstCommandAfterReset := by
  rintro c w s hc rfl
  obtain ⟨hissue, -⟩ := commandWriteIssuesOnlyWhenIdle (State.resetWith c) w
  refine ⟨rfl, hissue rfl, fun rd a b m v => ?_⟩
  obtain ⟨hx, -⟩ := resetValuesOfTheSpec c hc
  generalize hs : (State.resetWith c).issue w = s
  have hx : ∀ r, s.getX r = 0 := fun r => hs ▸ hx r
  obtain ⟨hdec, -⟩ := decFaultsInOrder s rd 0 (by rw [← hs]; rfl)
  obtain ⟨henc, -⟩ := encodeZeroIsFromEncAlone
  obtain ⟨hsmall, -⟩ := smallModulusFaults
  have hbelow : ∀ r, s.getX r < 128 := fun r => by rw [hx r]; decide
  obtain ⟨-, hmodexp, hmodred⟩ := hsmall s rd a b m (hbelow m)
  obtain ⟨hblklen, -, -⟩ := hsmall s rd a b a (hbelow a)
  refine ⟨hdec rfl, henc s a (hx a), fun hpos hlen => ?encw, hblklen, hmodexp, hmodred,
    exec_mul_of_zeros hx rd a b, ?mov, exec_ldi s rd v, ?cmp⟩
  case encw =>
    have hcfg : s.cfg = c := hs ▸ rfl
    have hlen : v.toNat ≤ s.cfg.dmax := hcfg ▸ hlen
    have hexec := exec_encw (a := a) hpos hlen (by rw [hx a]; exact Nat.pow_pos (by decide))
    rw [hx a] at hexec
    exact ⟨_, hexec, hs ▸ rfl, rfl, State.encoded_dlen_imm s 0 v, State.encoded_zero_digit hlen⟩
  case mov =>
    rw [exec_mov, hx a, State.setX_of_getX (hx rd)]
    rfl
  case cmp =>
    rw [exec_cmp, hx a, hx b, ← hs]
    rfl

end Sys2Proof.Machine

/-! SUPPORT. Nothing in ME128 is stuck (93_implementation_defined.md section 2): each way a command ends,
a fault among them, and each way a step goes is a next state. -/

namespace Sys2Proof.Machine

theorem Ends.exists_next {i : Instr} {s : State} {r : Result} (e : Ends i s r) : ∃ t, r = .next t := by
  cases e with
  | fault c => exact ⟨s.takeFault c, rfl⟩
  | register rd v => exact ⟨(s.setX rd v).deliver, rfl⟩
  | digits ds => exact ⟨(s.storeDigits ds).deliver, rfl⟩
  | flags => exact ⟨_, rfl⟩

theorem Goes.exists_next {s : State} {r : Result} (g : Goes s r) : ∃ t, r = .next t := by
  cases g with
  | read | refused | write => exact ⟨_, rfl⟩
  | reset rest => exact ⟨resetEvent { s with inputs := rest }, rfl⟩
  | idle rest => exact ⟨{ s with inputs := rest }, rfl⟩
  | illegal => exact ⟨_, rfl⟩
  | completion _ _ _ _ _ t => exact ⟨t.record (completionObs t), rfl⟩

/-- Settles O9: `exec_ends` and `step_goes` list every outcome, and no outcome listed is a stop. -/
theorem nothingIsStuck : Obligations.NothingIsStuck :=
  ⟨fun i s => (exec_ends i s).exists_next, fun s => (step_goes s).exists_next⟩

end Sys2Proof.Machine
